-- ==== Sys2Proof/Word.lean ====
section
/-! DEFINITION. The words on the core's ports (30_encoding.md rules R85, R93) and the closed sets of
names the spec gives: levels, FSM states, transition rows, response codes, annotation kinds. -/

namespace Sys2Proof

/-- Eight bits (10_state.md rules R23, R25). -/
abbrev Byte := BitVec 8

/-- A command word `CMD`, 68 bits: `op[67:65] lvl[64] arg[63:0]` (30_encoding.md rule R85). -/
abbrev CmdWord := BitVec 68

/-- A dispatch vector `V`, 14 bits (30_encoding.md rule R93). -/
abbrev DispatchWord := BitVec 14

/-- An encoded instruction: a command word on the command port (R85), or the dispatch vector that
selects a transition row inside an `EDGE` step (R93). Every word has one fixed length (R100). -/
inductive PortWord where
  | command (w : CmdWord)
  | dispatch (v : DispatchWord)
  deriving DecidableEq, Repr

/-- The raw logic level of the channel (00_scope.md rule R9): `low` is 0 and `high` is 1. -/
inductive Level where
  | low
  | high
  deriving DecidableEq, Repr

/-- The input-polarity option (10_state.md rule R40): `activeLow` is 0 and `activeHigh` is 1. -/
inductive Polarity where
  | activeLow
  | activeHigh
  deriving DecidableEq, Repr

/-- The six values of the FSM state register (10_state.md rule R21). `DATA_BIT` is omitted
(30_encoding.md rule R95). -/
inductive FsmState where
  | idle
  | leaderLow
  | leaderHigh
  | dataLow
  | dataHigh
  | sep
  deriving DecidableEq, Repr

/-- The 23 rows of the edge step's transition table (30_encoding.md rule R94). -/
inductive Row where
  | tFirst
  | tIdleIgnore
  | tIdleLeader
  | tIdlePol
  | tTimeoutLl
  | tTimeoutLh
  | tTimeoutDl
  | tTimeoutDh
  | tTimeoutSep
  | tLlOk
  | tLlBad
  | tLlPol
  | tLhOk
  | tLhBad
  | tLhPol
  | tDlSep
  | tDlBit
  | tDlSkip
  | tDhBit0
  | tDhBit1
  | tDhFail
  | tSepOk
  | tSepBad
  deriving DecidableEq, Repr

/-- The response to a command (30_encoding.md rule R87). Code `0b11` is never produced, so it has no
constructor. -/
inductive Response where
  | ok
  | errMissingRate
  | errRefused
  deriving DecidableEq, Repr

/-- The annotation kinds the source lists (30_encoding.md rule R89). `packet` is listed and emitted
by no rule (R96); codes 9 to 15 have no constructor. -/
inductive AnnKind where
  | bit
  | leader
  | separator
  | byte
  | address
  | command
  | packet
  | warning
  | temperature
  deriving DecidableEq, Repr

/-- Sub-kinds of a `command` annotation (30_encoding.md rule R90). -/
inductive CommandSub where
  | fanSpeed
  | mode
  | fanOnly
  deriving DecidableEq, Repr

/-- Warning causes (30_encoding.md rule R91). -/
inductive WarningCause where
  | idleTimeout
  | leadLowTiming
  | leadHighTiming
  | sepTiming
  deriving DecidableEq, Repr

/-- The lifecycle modes, read off two flags (60_exceptions.md rule R258). -/
inductive Lifecycle where
  | unconfigured
  | configured
  | running
  deriving DecidableEq, Repr

end Sys2Proof
end

