-- ==== Sys2Proof/Syntax.lean ====
section
/-! DEFINITION. Syntax: one constructor per row of spec/opcode_table.json, and nothing else. -/

namespace Sys2Proof

/-- The rows of the opcode table: the host commands (30_encoding.md rule R86), with the fields each
uses of its command word (R85), and the transition rows of the edge step (R94). `rate` and `t` are
unbounded naturals (00_scope.md rule R6); a command word carries 64 bits of them (`Instr.wf`). A
transition row has the operands `t`, `l` of the `EDGE` command in execution, which it reads from the
port register `edge` of the state, and no field of its own. -/
inductive Instr where
  /-- `SET_RATE` (40_calibrator.md R112): announce the sampling rate. -/
  | setRate (rate : Nat)
  /-- `SET_POL` (44_host_ops.md R221): record the polarity option. -/
  | setPol (lvl : Level)
  /-- `START` (44_host_ops.md R222): begin a decoding session. -/
  | start
  /-- `EDGE` (42_fsm.md R150): deliver one edge, timestamp and new level. -/
  | edge (t : Nat) (lvl : Level)
  /-- `END` (44_host_ops.md R223): end of input. -/
  | endInput
  /-- Reserved opcode `0b000` (44_host_ops.md R224). -/
  | reserved000
  /-- Reserved opcode `0b110` (44_host_ops.md R224). -/
  | reserved110
  /-- Reserved opcode `0b111` (44_host_ops.md R224). -/
  | reserved111
  /-- `T_FIRST` (42_fsm.md R151). -/
  | tFirst
  /-- `T_IDLE_IGNORE` (42_fsm.md R153). -/
  | tIdleIgnore
  /-- `T_IDLE_LEADER` (42_fsm.md R154). -/
  | tIdleLeader
  /-- `T_IDLE_POL` (42_fsm.md R155). -/
  | tIdlePol
  /-- `T_TIMEOUT_LL` (42_fsm.md R152). -/
  | tTimeoutLl
  /-- `T_TIMEOUT_LH` (42_fsm.md R152). -/
  | tTimeoutLh
  /-- `T_TIMEOUT_DL` (42_fsm.md R152). -/
  | tTimeoutDl
  /-- `T_TIMEOUT_DH` (42_fsm.md R152). -/
  | tTimeoutDh
  /-- `T_TIMEOUT_SEP` (42_fsm.md R152). -/
  | tTimeoutSep
  /-- `T_LL_OK` (42_fsm.md R156). -/
  | tLlOk
  /-- `T_LL_BAD` (42_fsm.md R157). -/
  | tLlBad
  /-- `T_LL_POL` (42_fsm.md R158). -/
  | tLlPol
  /-- `T_LH_OK` (42_fsm.md R159). -/
  | tLhOk
  /-- `T_LH_BAD` (42_fsm.md R160). -/
  | tLhBad
  /-- `T_LH_POL` (42_fsm.md R161). -/
  | tLhPol
  /-- `T_DL_SEP` (42_fsm.md R162). -/
  | tDlSep
  /-- `T_DL_BIT` (42_fsm.md R163). -/
  | tDlBit
  /-- `T_DL_SKIP` (42_fsm.md R164). -/
  | tDlSkip
  /-- `T_DH_BIT0` (42_fsm.md R165). -/
  | tDhBit0
  /-- `T_DH_BIT1` (42_fsm.md R166). -/
  | tDhBit1
  /-- `T_DH_FAIL` (42_fsm.md R167). -/
  | tDhFail
  /-- `T_SEP_OK` (42_fsm.md R168). -/
  | tSepOk
  /-- `T_SEP_BAD` (42_fsm.md R169). -/
  | tSepBad
  deriving DecidableEq, Repr

end Sys2Proof
end

