-- ==== Sys2Proof/WellFormed.lean ====
section
/-! DEFINITION. WellFormed: an instruction is well formed when its operands fit the 64-bit `arg`
field of the command word (30_encoding.md rule R85). -/

namespace Sys2Proof

/-- A natural fits the field `arg[63:0]` (30_encoding.md rule R85). -/
def argFits (n : Nat) : Bool := decide (n < 2 ^ 64)

/-- The operands of a command fit its word; every other instruction is well formed. `rate` = 0 is
well formed: it is an encodable command, which the core refuses (40_calibrator.md rule R112). -/
def Instr.wf : Instr → Bool
  | .setRate rate => argFits rate
  | .edge t _ => argFits t
  | .setPol _ | .start | .endInput | .reserved000 | .reserved110 | .reserved111 => true
  | .tFirst | .tIdleIgnore | .tIdleLeader | .tIdlePol => true
  | .tTimeoutLl | .tTimeoutLh | .tTimeoutDl | .tTimeoutDh | .tTimeoutSep => true
  | .tLlOk | .tLlBad | .tLlPol | .tLhOk | .tLhBad | .tLhPol => true
  | .tDlSep | .tDlBit | .tDlSkip | .tDhBit0 | .tDhBit1 | .tDhFail | .tSepOk | .tSepBad => true

end Sys2Proof
end

