-- ==== Sys2Proof/Decode.lean ====
section
/-! DEFINITION. Decode and encode: command words (30_encoding.md rules R85, R86), state codes (R92)
and the match/mask rows of the transition table (R94). -/

namespace Sys2Proof

/-- The one-bit code of a level (00_scope.md rule R9). -/
def Level.toBit : Level → BitVec 1
  | .low => 0
  | .high => 1

/-- The level of a one-bit code. -/
def Level.ofBit (b : BitVec 1) : Level := if b = 1 then .high else .low

/-- The polarity that `SET_POL` selects with its `lvl` (30_encoding.md rule R85: "0 active-low,
1 active-high"). -/
def Polarity.ofLevel : Level → Polarity
  | .low => .activeLow
  | .high => .activeHigh

/-- State codes (30_encoding.md rule R92). -/
def FsmState.code : FsmState → BitVec 3
  | .idle => 0b000
  | .leaderLow => 0b001
  | .leaderHigh => 0b010
  | .dataLow => 0b011
  | .dataHigh => 0b100
  | .sep => 0b101

/-- The state of a code: `0b110` and `0b111` name none (30_encoding.md rules R92, R95). -/
def FsmState.ofCode (c : BitVec 3) : Option FsmState :=
  if c = 0b000 then some .idle
  else if c = 0b001 then some .leaderLow
  else if c = 0b010 then some .leaderHigh
  else if c = 0b011 then some .dataLow
  else if c = 0b100 then some .dataHigh
  else if c = 0b101 then some .sep
  else none

/-! ### Command words -/

/-- `CMD.op`, bits [67:65] (30_encoding.md rule R85). -/
def cmdOp (w : CmdWord) : BitVec 3 := w.extractLsb' 65 3

/-- `CMD.lvl`, bit [64] (30_encoding.md rule R85). -/
def cmdLvl (w : CmdWord) : BitVec 1 := w.extractLsb' 64 1

/-- `CMD.arg`, bits [63:0] (30_encoding.md rule R85). -/
def cmdArg (w : CmdWord) : BitVec 64 := w.extractLsb' 0 64

/-- A command word from its fields (30_encoding.md rule R85). -/
def cmdWord (op : BitVec 3) (lvl : BitVec 1) (arg : BitVec 64) : CmdWord := op ++ lvl ++ arg

/-- Command opcodes (30_encoding.md rule R86): all eight are rows of the table, so the decoding of a
command word is total. Ignored fields are dropped (R85). -/
def decodeCmd (w : CmdWord) : Instr :=
  if cmdOp w = 0b001 then .setRate (cmdArg w).toNat
  else if cmdOp w = 0b010 then .setPol (Level.ofBit (cmdLvl w))
  else if cmdOp w = 0b011 then .start
  else if cmdOp w = 0b100 then .edge (cmdArg w).toNat (Level.ofBit (cmdLvl w))
  else if cmdOp w = 0b101 then .endInput
  else if cmdOp w = 0b000 then .reserved000
  else if cmdOp w = 0b110 then .reserved110
  else .reserved111

/-! ### The transition table -/

/-- One row of the transition table: it applies when `V &&& mask = matchBits` (30_encoding.md rule
R94). -/
structure RowPattern where
  row : Row
  matchBits : DispatchWord
  mask : DispatchWord
  deriving DecidableEq, Repr

/-- The transition table (30_encoding.md rule R94), in the spec's order. The rows are pairwise
disjoint, so the order is not observable. -/
def rowTable : List RowPattern :=
  [⟨.tFirst, 0x0000, 0x2000⟩,
   ⟨.tIdleIgnore, 0x2000, 0x3C40⟩,
   ⟨.tIdleLeader, 0x2140, 0x3D40⟩,
   ⟨.tIdlePol, 0x2040, 0x3D40⟩,
   ⟨.tTimeoutLl, 0x2600, 0x3E00⟩,
   ⟨.tTimeoutLh, 0x2A00, 0x3E00⟩,
   ⟨.tTimeoutDl, 0x2E00, 0x3E00⟩,
   ⟨.tTimeoutDh, 0x3200, 0x3E00⟩] ++
  [⟨.tTimeoutSep, 0x3600, 0x3E00⟩,
   ⟨.tLlOk, 0x2540, 0x3F40⟩,
   ⟨.tLlBad, 0x2500, 0x3F40⟩,
   ⟨.tLlPol, 0x2400, 0x3F00⟩,
   ⟨.tLhOk, 0x28A0, 0x3EA0⟩,
   ⟨.tLhBad, 0x2880, 0x3EA0⟩,
   ⟨.tLhPol, 0x2800, 0x3E80⟩] ++
  [⟨.tDlSep, 0x2C11, 0x3E11⟩,
   ⟨.tDlBit, 0x2C10, 0x3E11⟩,
   ⟨.tDlSkip, 0x2C00, 0x3E10⟩,
   ⟨.tDhBit0, 0x3008, 0x3E08⟩,
   ⟨.tDhBit1, 0x3004, 0x3E0C⟩,
   ⟨.tDhFail, 0x3000, 0x3E0C⟩,
   ⟨.tSepOk, 0x3402, 0x3E02⟩,
   ⟨.tSepBad, 0x3400, 0x3E02⟩]

/-- The row pattern applies to the vector (30_encoding.md rule R94). -/
def RowPattern.applies (p : RowPattern) (v : DispatchWord) : Bool := v &&& p.mask == p.matchBits

/-- The row a dispatch vector selects, if any (30_encoding.md rule R94). -/
def decodeRow (v : DispatchWord) : Option Row := (rowTable.find? (·.applies v)).map (·.row)

/-- A row as a constructor of `Instr`. -/
def Row.toInstr : Row → Instr
  | .tFirst => .tFirst
  | .tIdleIgnore => .tIdleIgnore
  | .tIdleLeader => .tIdleLeader
  | .tIdlePol => .tIdlePol
  | .tTimeoutLl => .tTimeoutLl
  | .tTimeoutLh => .tTimeoutLh
  | .tTimeoutDl => .tTimeoutDl
  | .tTimeoutDh => .tTimeoutDh
  | .tTimeoutSep => .tTimeoutSep
  | .tLlOk => .tLlOk
  | .tLlBad => .tLlBad
  | .tLlPol => .tLlPol
  | .tLhOk => .tLhOk
  | .tLhBad => .tLhBad
  | .tLhPol => .tLhPol
  | .tDlSep => .tDlSep
  | .tDlBit => .tDlBit
  | .tDlSkip => .tDlSkip
  | .tDhBit0 => .tDhBit0
  | .tDhBit1 => .tDhBit1
  | .tDhFail => .tDhFail
  | .tSepOk => .tSepOk
  | .tSepBad => .tSepBad

/-! ### The decoder and the encoder -/

/-- Why a port word is no instruction. -/
inductive DecodeError where
  /-- A dispatch vector that no row matches: `prev_valid` = 1 with the state code `0b110` or
  `0b111`, which no state has (30_encoding.md rules R92, R94, R95). -/
  | unassignedStateCode
  /-- More bits than the port word has (30_encoding.md rule R100: one fixed length each). -/
  | wordTooLong
  deriving DecidableEq, Repr

/-- The decoder, total on every port word. -/
def decode : PortWord → Except DecodeError Instr
  | .command w => .ok (decodeCmd w)
  | .dispatch v =>
    match decodeRow v with
    | some r => .ok r.toInstr
    | none => .error .unassignedStateCode

/-- The encoder: a command with its ignored fields 0 (log 14), a row as its match word (30_encoding.md rules
R85, R86, R94). -/
def encode : Instr → PortWord
  | .setRate rate => .command (cmdWord 0b001 0 (BitVec.ofNat 64 rate))
  | .setPol lvl => .command (cmdWord 0b010 lvl.toBit 0)
  | .start => .command (cmdWord 0b011 0 0)
  | .edge t lvl => .command (cmdWord 0b100 lvl.toBit (BitVec.ofNat 64 t))
  | .endInput => .command (cmdWord 0b101 0 0)
  | .reserved000 => .command (cmdWord 0b000 0 0)
  | .reserved110 => .command (cmdWord 0b110 0 0)
  | .reserved111 => .command (cmdWord 0b111 0 0)
  | .tFirst => .dispatch 0x0000
  | .tIdleIgnore => .dispatch 0x2000
  | .tIdleLeader => .dispatch 0x2140
  | .tIdlePol => .dispatch 0x2040
  | .tTimeoutLl => .dispatch 0x2600
  | .tTimeoutLh => .dispatch 0x2A00
  | .tTimeoutDl => .dispatch 0x2E00
  | .tTimeoutDh => .dispatch 0x3200
  | .tTimeoutSep => .dispatch 0x3600
  | .tLlOk => .dispatch 0x2540
  | .tLlBad => .dispatch 0x2500
  | .tLlPol => .dispatch 0x2400
  | .tLhOk => .dispatch 0x28A0
  | .tLhBad => .dispatch 0x2880
  | .tLhPol => .dispatch 0x2800
  | .tDlSep => .dispatch 0x2C11
  | .tDlBit => .dispatch 0x2C10
  | .tDlSkip => .dispatch 0x2C00
  | .tDhBit0 => .dispatch 0x3008
  | .tDhBit1 => .dispatch 0x3004
  | .tDhFail => .dispatch 0x3000
  | .tSepOk => .dispatch 0x3402
  | .tSepBad => .dispatch 0x3400

/-- A word of the opcode table as a port word: a row of at most 16 bits is a V14 dispatch vector, a
longer one (up to 72 bits) a CMD68 command word; bits above the word's fixed length must be 0
(30_encoding.md rule R100; log 15). -/
def tablePortWord (nbits w : Nat) : Except DecodeError PortWord :=
  if nbits ≤ 16 then
    if w < 2 ^ 14 then .ok (.dispatch (BitVec.ofNat 14 w)) else .error .wordTooLong
  else if nbits ≤ 72 ∧ w < 2 ^ 68 then .ok (.command (BitVec.ofNat 68 w))
  else .error .wordTooLong

/-- The instruction the decoder reads from a word of the opcode table. -/
def decodeTableWord (nbits w : Nat) : Option Instr :=
  match tablePortWord nbits w with
  | .error _ => none
  | .ok p =>
    match decode p with
    | .error _ => none
    | .ok i => some i

end Sys2Proof
end

