-- ==== Sys2Proof/Config.lean ====
section
/-! DEFINITION. Config: the fixed parameters of 00_scope.md rule R6 and the free constants for what
the spec leaves to a collaborator. A constant without a body is free: no proof can see its value. -/

namespace Sys2Proof.Config

/-- `TOL_NUM / TOL_DEN` = 15 / 100 (rule R6; hardwired, 10_state.md rule R39). -/
def tolNum : Nat := 15
/-- Denominator of the tolerance fraction (rule R6). -/
def tolDen : Nat := 100

/-- `US_IDLE`, microseconds (rules R6, R110). -/
def usIdle : Nat := 30000
/-- `US_LEAD_LOW` (rules R6, R110). -/
def usLeadLow : Nat := 4500
/-- `US_LEAD_HIGH` (rules R6, R110). -/
def usLeadHigh : Nat := 4350
/-- `US_SEP_LOW` (rules R6, R110). -/
def usSepLow : Nat := 600
/-- `US_SEP_HIGH` (rules R6, R110). -/
def usSepHigh : Nat := 5110
/-- `US_BIT_LOW` (rules R6, R110). -/
def usBitLow : Nat := 600
/-- `US_BIT0_HIGH` (rules R6, R110). -/
def usBit0High : Nat := 500
/-- `US_BIT1_HIGH` (rules R6, R110). -/
def usBit1High : Nat := 1600

/-- `BLOCK_BYTES` (rule R6). -/
def blockBytes : Nat := 6
/-- `BYTE_BITS` (rule R6). -/
def byteBits : Nat := 8
/-- `FAN_ONLY_TEMP`: the decoded temperature that means "no valid temperature" (rule R6). -/
def fanOnlyTemp : Nat := 31
/-- `TEMP_MIN` (rule R6). -/
def tempMin : Nat := 17
/-- `TEMP_MAX` (rule R6). -/
def tempMax : Nat := 31
/-- `EXPECTED_ADDR` (rule R6): expected in byte 0, compared with nothing (43_assembler.md R201). -/
def expectedAddr : Byte := 0xB2
/-- `POLARITY_INVERT` (rule R6, 44_host_ops.md rule R221): the option has no effect (log 16). -/
def polarityInvert : Bool := false

/-- The fourteen entries of `gray_temp` the spec does not give (43_assembler.md rule R198 (c)): a
FREE constant. `Machine.grayTemp` brings it into the range of R198 (a) and pins the two points of
R198 (b). Log 11. DESIGN CHOICE (the form). -/
opaque grayFree : BitVec 4 → Nat

/-- The fan labels the spec does not give (30_encoding.md rule R103, entry U4): a FREE constant,
read by nothing in the core. Log 12. -/
opaque fanLabelFree : BitVec 3 → String
/-- The mode labels the spec does not give (rule R103, entry U4). FREE; log 12. -/
opaque modeLabelFree : BitVec 2 → String
/-- The address labels the spec does not give (rule R103, entry U4). FREE; log 12. -/
opaque addrLabelFree : Byte → String

end Sys2Proof.Config
end

