-- ==== Sys2Proof/Machine/State.lean ====
section
/-! DEFINITION. State: the spec's `DecoderState` (10_state.md) and the ports of the core, as plain
data; the reasons a step can stop; the state after reset. -/

namespace Sys2Proof.Machine

/-- The eight thresholds (10_state.md rules R31 to R38), in samples. -/
structure Thresholds where
  /-- `th_idle` (R31). -/
  idle : Int
  /-- `th_lead_low` (R32). -/
  leadLow : Int
  /-- `th_lead_high` (R33). -/
  leadHigh : Int
  /-- `th_sep_low` (R34): computed and held, read by nothing. -/
  sepLow : Int
  /-- `th_sep_high` (R35). -/
  sepHigh : Int
  /-- `th_bit_low` (R36). -/
  bitLow : Int
  /-- `th_bit0_high` (R37). -/
  bit0High : Int
  /-- `th_bit1_high` (R38). -/
  bit1High : Int
  deriving DecidableEq, Repr

/-- All state of the core (10_state.md rule R20): configuration, edge tracker, block state. -/
structure DecoderState where
  /-- `state` (R21). -/
  state : FsmState
  /-- `prev_valid` (R22, R29). -/
  prevValid : Bool
  /-- `prev_ts` (R22). -/
  prevTs : Nat
  /-- `prev_level` (R22). -/
  prevLevel : Level
  /-- `acc` (R23). -/
  acc : Byte
  /-- `bit_count` (R24). -/
  bitCount : Nat
  /-- `buf[0..5]` (R25). -/
  buf : Vector Byte 6
  /-- `byte_count` (R26). -/
  byteCount : Nat
  /-- `bit_start` (R27). -/
  bitStart : Nat
  /-- `byte_start` (R28). -/
  byteStart : Nat
  /-- `rate_valid` (R29). -/
  rateValid : Bool
  /-- `running` (R29). -/
  running : Bool
  /-- `rate` (R30). -/
  rate : Nat
  /-- The `th_*` registers (R31 to R38). -/
  th : Thresholds
  /-- `polarity` (R40). -/
  polarity : Polarity
  deriving DecidableEq, Repr

/-- The operands `t`, `l` of an `EDGE` command (42_fsm.md rule R150). -/
structure Edge where
  t : Nat
  lvl : Level
  deriving DecidableEq, Repr

/-- An annotation record `ANN` (30_encoding.md rule R88). `start` and `stop` are the spec's `start`
and `end`; `start ≤ stop` is not guaranteed. -/
structure Annotation where
  kind : AnnKind
  data : Byte
  start : Int
  stop : Int
  deriving DecidableEq, Repr

/-- What the host can do to the core: issue a command word (30_encoding.md rule R85) or drive the
hardware reset input, asserted or released (70_reset_and_hazards.md rule R280). -/
inductive HostInput where
  | command (w : CmdWord)
  | resetInput (asserted : Bool)
  deriving DecidableEq, Repr

/-- The machine: the core's state and its ports. The ports are the model's own fields (R20 does not
count them as state; logs 2, 3, 4, 6). -/
structure State where
  /-- The record of 10_state.md rule R20. -/
  dec : DecoderState
  /-- The command port's `arg` and `lvl` while an `EDGE` command runs: the operands of a transition
  row. DESIGN CHOICE, log 3. -/
  edge : Edge
  /-- The hardware reset input: whether it is asserted (70_reset_and_hazards.md rule R280). Log 6. -/
  resetAsserted : Bool
  /-- Host inputs not yet taken, oldest first (the program; 00_scope.md rule R5). DESIGN CHOICE,
  log 2. -/
  pending : List HostInput
  /-- The annotation stream, oldest first (20_memory.md rule R60 (3)). Log 4. -/
  out : List Annotation
  /-- The responses, oldest first (30_encoding.md rule R87). Log 4. -/
  responses : List Response
  deriving DecidableEq, Repr

/-- Why a step stops with a fault. -/
inductive Fault where
  /-- Raised by `finalizeByte` (rows `T_DH_BIT0`, `T_DH_BIT1`) when `byte_count` is above 5, so that
  `buf[byte_count]` does not exist (20_memory.md rule R61: "the index is always in range"). No state
  that meets the invariant of 10_state.md rule R43 raises it. SAFE: the model stops where the spec
  gives nothing. DEDUCED, log 9. -/
  | bufIndexOutOfRange
  deriving DecidableEq, Repr

/-- Why a step is refused a meaning. -/
inductive Refusal where
  /-- Raised by an arm of `exec` whose instruction has no meaning yet; no arm does. SAFE. -/
  | notModelled (mnemonic : String)
  /-- Raised by `EDGE` if its dispatch vector selected no row. The rows cover every vector a state
  can form (30_encoding.md rule R94), so nothing raises it. SAFE. DEDUCED, log 10. -/
  | noTransitionRow
  deriving DecidableEq, Repr

/-- Every threshold 0 (10_state.md rule R44). -/
def Thresholds.zero : Thresholds :=
  { idle := 0, leadLow := 0, leadHigh := 0, sepLow := 0, sepHigh := 0, bitLow := 0,
    bit0High := 0, bit1High := 0 }

/-- The six bytes 0 (10_state.md rule R44). -/
def emptyBuf : Vector Byte 6 := Vector.replicate 6 0

/-- The hardware-reset column of 10_state.md rule R44; 70_reset_and_hazards.md rule R280. -/
def DecoderState.reset : DecoderState :=
  { state := .idle
    prevValid := false
    prevTs := 0
    prevLevel := .low
    acc := 0
    bitCount := 0
    buf := emptyBuf
    byteCount := 0
    bitStart := 0
    byteStart := 0
    rateValid := false
    running := false
    rate := 0
    th := Thresholds.zero
    polarity := .activeLow }

/-- The machine right after reset (70_reset_and_hazards.md rule R280: "when it is released the state
is"), with nothing pending and empty ports. The `edge` operands are the model's own; their reset value is a DESIGN CHOICE (log 3). -/
def State.reset : State :=
  { dec := DecoderState.reset
    edge := { t := 0, lvl := .low }
    resetAsserted := false
    pending := []
    out := []
    responses := [] }

end Sys2Proof.Machine
end

