-- ==== Sys2Proof/Machine/Operands.lean ====
section
/-! DEFINITION. Operands: the measured pulse, the fields of a finalized byte, the popcount-weighted
length, the one external table the core reads, and the codes and payloads of its ports. -/

namespace Sys2Proof.Machine

/-! ### Codes of the ports -/

/-- Response codes (30_encoding.md rule R87). -/
def responseCode : Response → BitVec 2
  | .ok => 0b00
  | .errMissingRate => 0b01
  | .errRefused => 0b10

/-- Annotation kind codes (30_encoding.md rule R89). -/
def annKindCode : AnnKind → BitVec 4
  | .bit => 0
  | .leader => 1
  | .separator => 2
  | .byte => 3
  | .address => 4
  | .command => 5
  | .packet => 6
  | .warning => 7
  | .temperature => 8

/-- `command` sub-kind codes (30_encoding.md rule R90). -/
def commandSubCode : CommandSub → BitVec 2
  | .fanSpeed => 0b00
  | .mode => 0b01
  | .fanOnly => 0b10

/-- Warning cause codes (30_encoding.md rule R91). -/
def warningCauseCode : WarningCause → Byte
  | .idleTimeout => 1
  | .leadLowTiming => 2
  | .leadHighTiming => 3
  | .sepTiming => 4

/-- The payload of a `leader` annotation: 0 for the low pulse, 1 for the high pulse (30_encoding.md
rule R90). -/
def leaderData : Level → Byte
  | .low => 0
  | .high => 1

/-- The payload of a `bit` annotation: `data[0]` is the bit value (30_encoding.md rule R90). -/
def bitData (b : Bool) : Byte := if b then 1 else 0

/-- The payload of a `FAN_SPEED` command: `{0b00, 0b000, code}` (43_assembler.md rule R195). -/
def fanData (code : BitVec 3) : Byte := commandSubCode .fanSpeed ++ (0 : BitVec 3) ++ code

/-- The payload of a `MODE` or `FAN_ONLY` command: `{sub, 0b0000, m}` (43_assembler.md rule R197). -/
def modeData (sub : CommandSub) (m : BitVec 2) : Byte := commandSubCode sub ++ (0 : BitVec 4) ++ m

/-! ### The measured pulse -/

/-- `w = t - prev_ts` (41_classifier.md rule R130). -/
def pulseWidth (d : DecoderState) (e : Edge) : Nat := e.t - d.prevTs

/-! ### Fields of a finalized byte -/

/-- `fan_code = v[7:5]` (30_encoding.md rule R84). -/
def fanCode (v : Byte) : BitVec 3 := v.extractLsb' 5 3

/-- `temp_nibble = v[7:4]` (30_encoding.md rule R84). -/
def tempNibble (v : Byte) : BitVec 4 := v.extractLsb' 4 4

/-- `mode_code = v[3:2]` (30_encoding.md rule R84). -/
def modeCode (v : Byte) : BitVec 2 := v.extractLsb' 2 2

/-- The number of 1 bits (00_scope.md rule R7). -/
def popcount {n : Nat} (v : BitVec n) : Nat := (List.range n).countP fun i => v.getLsbD i

/-- `field_len(code, n)` (43_assembler.md rule R194): a 1 bit counts `th_bit1_high + th_bit_low`, a
0 bit counts `th_bit_low` twice. -/
def fieldLen (th : Thresholds) {n : Nat} (code : BitVec n) : Int :=
  (popcount code : Int) * th.bit1High + (2 * (n : Int) - (popcount code : Int)) * th.bitLow

/-- `gray_temp` (43_assembler.md rule R198): the two points of (b); elsewhere a FREE value in the
range of (a). Every function that meets (a) and (b) is obtained from some value of the free
constant. Log 11. -/
def grayTemp (nib : BitVec 4) : Nat :=
  if nib = 0b0000 then 17
  else if nib = 0b1110 then 31
  else Config.tempMin + Config.grayFree nib % (Config.tempMax - Config.tempMin + 1)

/-! ### Reading the block buffer -/

/-- Byte `i` of the block buffer, `none` where there is no such byte (20_memory.md rule R61). No rule
of the core reads the buffer; statements do. -/
def bufByte (d : DecoderState) (i : Nat) : Option Byte := d.buf[i]?

end Sys2Proof.Machine
end

