-- ==== Sys2Proof/Machine/Flags.lean ====
section
/-! DEFINITION. Flags: the Pulse Classifier (41_classifier.md), the dispatch vector (30_encoding.md
rule R93) and the lifecycle mode read off two flags (60_exceptions.md rule R258). -/

namespace Sys2Proof.Machine

/-- `near(w, b)` (41_classifier.md rule R131): the one tolerance policy, exact on integers, both
bounds inclusive. 85 and 115 are 100 minus and plus the tolerance numerator. -/
def near (w : Nat) (b : Int) : Bool :=
  decide (((Config.tolDen : Int) - Config.tolNum) * b ≤ (Config.tolDen : Int) * w) &&
    decide ((Config.tolDen : Int) * w ≤ ((Config.tolDen : Int) + Config.tolNum) * b)

/-- `P_idle` (41_classifier.md rule R134): strict, without tolerance. -/
def pIdle (th : Thresholds) (w : Nat) : Bool := decide (th.idle < (w : Int))

/-- `P_sep` (41_classifier.md rule R135): strict, lower bound only. -/
def pSep (th : Thresholds) (w : Nat) : Bool :=
  decide (((Config.tolDen : Int) - Config.tolNum) * th.sepHigh < (Config.tolDen : Int) * w)

/-- `P_rise` (41_classifier.md rule R136). -/
def pRise (d : DecoderState) (e : Edge) : Bool := d.prevLevel == .low && e.lvl == .high

/-- `P_fall` (41_classifier.md rule R136). -/
def pFall (d : DecoderState) (e : Edge) : Bool := d.prevLevel == .high && e.lvl == .low

/-- `P_ll` (41_classifier.md rule R136). -/
def pLl (th : Thresholds) (w : Nat) : Bool := near w th.leadLow
/-- `P_lh` (41_classifier.md rule R136). -/
def pLh (th : Thresholds) (w : Nat) : Bool := near w th.leadHigh
/-- `P_bl` (41_classifier.md rule R136). -/
def pBl (th : Thresholds) (w : Nat) : Bool := near w th.bitLow
/-- `P_b0` (41_classifier.md rule R136). -/
def pB0 (th : Thresholds) (w : Nat) : Bool := near w th.bit0High
/-- `P_b1` (41_classifier.md rule R136). -/
def pB1 (th : Thresholds) (w : Nat) : Bool := near w th.bit1High

/-- `P_full` (41_classifier.md rule R136). -/
def pFull (d : DecoderState) : Bool := d.byteCount == Config.blockBytes && d.bitCount == 0

/-- The dispatch vector `V`, `V[13]` first (30_encoding.md rule R93). With `prev_valid` = 0 the bits
`V[9:1]` are computed all the same and used by no row (log 8). -/
def dispatchVector (d : DecoderState) (e : Edge) : DispatchWord :=
  let w := pulseWidth d e
  BitVec.ofBool d.prevValid ++ d.state.code ++ BitVec.ofBool (pIdle d.th w) ++
    BitVec.ofBool (pRise d e) ++ BitVec.ofBool (pFall d e) ++ BitVec.ofBool (pLl d.th w) ++
    BitVec.ofBool (pLh d.th w) ++ BitVec.ofBool (pBl d.th w) ++ BitVec.ofBool (pB0 d.th w) ++
    BitVec.ofBool (pB1 d.th w) ++ BitVec.ofBool (pSep d.th w) ++ BitVec.ofBool (pFull d)

/-- The transition an accepted edge performs: the one row that matches its dispatch vector
(42_fsm.md rule R150). -/
def selectRow (d : DecoderState) (e : Edge) : Option Row := decodeRow (dispatchVector d e)

/-- The lifecycle mode (60_exceptions.md rule R258; 44_host_ops.md rule R220). -/
def lifecycle (d : DecoderState) : Lifecycle :=
  if d.running then .running else if d.rateValid then .configured else .unconfigured

end Sys2Proof.Machine
end

