-- ==== Sys2Proof/Machine/Ops.lean ====
section
/-! DEFINITION. Ops: the shared operations: ports, refusals, the full reset (the trap entry of this
hardware, 60_exceptions.md rule R252), the epilogue (42_fsm.md rule R170) and the Byte and Field
Assembler (43_assembler.md). -/

namespace Sys2Proof.Machine

/-- The three outcomes, over this machine's types. -/
abbrev Result := Host.Outcome State Fault Refusal

/-! ### Ports -/

/-- `emit(kind, start, end, data)`: append one record to the output stream (00_scope.md rule R8). -/
def emit (kind : AnnKind) (start stop : Int) (data : Byte) (s : State) : State :=
  { s with out := s.out ++ [{ kind := kind, data := data, start := start, stop := stop }] }

/-- `respond(code)`: the response of the current command (00_scope.md rule R8). -/
def respond (r : Response) (s : State) : State := { s with responses := s.responses ++ [r] }

/-- `refuse`: `ERR_REFUSED`, no register written, nothing emitted (60_exceptions.md rule R249). -/
def refuse (s : State) : Result := .next (respond .errRefused s)

/-- `raise MissingSampleRate`: `ERR_MISSING_RATE` with no state change (60_exceptions.md rule R241). -/
def raiseMissingSampleRate (s : State) : Result := .next (respond .errMissingRate s)

/-! ### Resets and the epilogue -/

/-- The block state cleared and `state` at `IDLE`; everything else kept (60_exceptions.md rule R252). -/
def clearBlock (d : DecoderState) : DecoderState :=
  { d with
    state := .idle, acc := 0, bitCount := 0, buf := emptyBuf, byteCount := 0, bitStart := 0,
    byteStart := 0 }

/-- `full_reset()` (60_exceptions.md rule R252): the one recovery action. There is no return from it
(R255). -/
def fullReset (s : State) : State := { s with dec := clearBlock s.dec }

/-- What `START` and `END` clear (44_host_ops.md rules R222, R223): the block state and the edge
tracker; the configuration and `running` are kept here. -/
def clearSession (d : DecoderState) : DecoderState :=
  { clearBlock d with prevValid := false, prevTs := 0, prevLevel := .low }

/-- The epilogue of every accepted `EDGE` step (42_fsm.md rule R170). -/
def epilogue (s : State) : State :=
  { s with
    dec := { s.dec with prevValid := true, prevTs := s.edge.t, prevLevel := s.edge.lvl } }

/-- The end of an accepted `EDGE` step: the epilogue, then the response `OK` (42_fsm.md rule R150). -/
def finishEdge (s : State) : Result := .next (respond .ok (epilogue s))

/-- A warning over the offending pulse `[prev_ts, t]` (60_exceptions.md rule R253). -/
def emitWarning (c : WarningCause) (s : State) : State :=
  emit .warning s.dec.prevTs s.edge.t (warningCauseCode c) s

/-- A leader annotation over the pulse `[prev_ts, t]` (42_fsm.md rules R154, R156, R159). -/
def emitLeader (l : Level) (s : State) : State :=
  emit .leader s.dec.prevTs s.edge.t (leaderData l) s

/-- Warning, full reset, end of the step: the common shape of the four timing events
(60_exceptions.md rules R242 to R245). The warning is emitted before the state is cleared (R254). -/
def warnAndReset (c : WarningCause) (s : State) : Result := finishEdge (fullReset (emitWarning c s))

/-- Full reset without a warning, end of the step (60_exceptions.md rules R246, R247). -/
def silentReset (s : State) : Result := finishEdge (fullReset s)

/-- `state <- S` (00_scope.md rule R8). -/
def setState (f : FsmState) (s : State) : State := { s with dec := { s.dec with state := f } }

/-! ### The Byte and Field Assembler -/

/-- `field_address(v, t)` (43_assembler.md rule R193). -/
def fieldAddress (v : Byte) (s : State) : State := emit .address s.dec.byteStart s.edge.t v s

/-- `field_fan(v)` (43_assembler.md rule R195). -/
def fieldFan (v : Byte) (s : State) : State :=
  emit .command s.dec.byteStart (s.dec.byteStart + fieldLen s.dec.th (fanCode v))
    (fanData (fanCode v)) s

/-- `temp_end` (43_assembler.md rule R196): a value local to the step. -/
def tempEnd (v : Byte) (d : DecoderState) : Int := d.byteStart + fieldLen d.th (tempNibble v)

/-- `field_temp_mode(v)`, first part: the temperature (43_assembler.md rule R196). -/
def fieldTemp (v : Byte) (s : State) : State :=
  if grayTemp (tempNibble v) = Config.fanOnlyTemp then s
  else
    emit .temperature s.dec.byteStart (tempEnd v s.dec)
      (BitVec.ofNat 8 (grayTemp (tempNibble v))) s

/-- `field_temp_mode(v)`, second part: the mode (43_assembler.md rule R197). -/
def fieldMode (v : Byte) (s : State) : State :=
  emit .command (tempEnd v s.dec) (tempEnd v s.dec + fieldLen s.dec.th (modeCode v))
    (modeData (if grayTemp (tempNibble v) = Config.fanOnlyTemp then .fanOnly else .mode)
      (modeCode v)) s

/-- `extract_fields(i, v, t)` (43_assembler.md rule R192). -/
def extractFields (i : Nat) (v : Byte) (s : State) : State :=
  if i = 0 then fieldAddress v s
  else if i = 2 then fieldFan v s
  else if i = 4 then fieldMode v (fieldTemp v s)
  else s

/-- `buf[i] <- v` (20_memory.md rule R61), for an index that exists. -/
def bufWrite (d : DecoderState) (i : Nat) (v : Byte) (h : i < 6) : DecoderState :=
  { d with buf := d.buf.set i v h }

/-- `finalize_byte(t)` (43_assembler.md rule R191). A `byte_count` above 5, which no reachable state
has here, leaves `buf[byte_count]` without a meaning: a fault (log 9). -/
def finalizeByte (s : State) : Result :=
  if h : s.dec.byteCount < 6 then
    let v := s.dec.acc
    let i := s.dec.byteCount
    let s1 := emit .byte s.dec.byteStart s.edge.t v s
    let d2 := { bufWrite s1.dec i v h with byteCount := i + 1, acc := 0, bitCount := 0 }
    .next (extractFields i v { s1 with dec := d2 })
  else .fault .bufIndexOutOfRange

/-- `acc <- zext_8({acc[6:0], b})` (30_encoding.md rule R83). -/
def shiftIn (acc : Byte) (b : Bool) : Byte := acc.extractLsb' 0 7 ++ BitVec.ofBool b

/-- `append_bit(b, t)` (43_assembler.md rule R190), at any `bit_count` (log 18). -/
def appendBit (b : Bool) (s : State) : Result :=
  let s1 :=
    { s with dec := { s.dec with acc := shiftIn s.dec.acc b, bitCount := s.dec.bitCount + 1 } }
  if s1.dec.bitCount = Config.byteBits then finalizeByte s1 else .next s1

/-- Continue with `k` where the outcome is a next state; a fault or a refusal ends the step. -/
def andThen (r : Result) (k : State → Result) : Result :=
  match r with
  | .next s => k s
  | .fault f => .fault f
  | .refused f => .refused f

/-- A decoded bit (42_fsm.md rules R165, R166): the bit annotation over the whole symbol, the append
(and what it closes), then `DATA_LOW`, then the end of the step. -/
def decodeBit (b : Bool) (s : State) : Result :=
  andThen (appendBit b (emit .bit s.dec.bitStart s.edge.t (bitData b) s)) fun s1 =>
    finishEdge (setState .dataLow s1)

end Sys2Proof.Machine
end

