-- ==== Sys2Proof/Machine/Calibrator.lean ====
section
/-! DEFINITION. The Timing Calibrator and `SET_RATE` (40_calibrator.md). -/

namespace Sys2Proof.Machine

/-- `floor(rate * US_X / 1000000) - 1` in exact integers (40_calibrator.md rule R111). -/
def threshold (rate us : Nat) : Int := ((rate * us / 1000000 : Nat) : Int) - 1

/-- The eight thresholds of a rate (40_calibrator.md rule R112). -/
def calibrate (rate : Nat) : Thresholds :=
  { idle := threshold rate Config.usIdle
    leadLow := threshold rate Config.usLeadLow
    leadHigh := threshold rate Config.usLeadHigh
    sepLow := threshold rate Config.usSepLow
    sepHigh := threshold rate Config.usSepHigh
    bitLow := threshold rate Config.usBitLow
    bit0High := threshold rate Config.usBit0High
    bit1High := threshold rate Config.usBit1High }

/-- `SET_RATE` (40_calibrator.md rule R112): accepted in every mode, refused for rate 0; state, edge
tracker and block state are kept. -/
def execSetRate (rate : Nat) (s : State) : Result :=
  if rate = 0 then refuse s
  else
    .next (respond .ok
      { s with dec := { s.dec with rate := rate, rateValid := true, th := calibrate rate } })

end Sys2Proof.Machine
end

