-- ==== Sys2Proof/Machine/Transitions.lean ====
section
/-! DEFINITION. The transition rows of the edge step (42_fsm.md rules R151 to R169). A row's meaning
is all that happens once it is selected: its own pseudocode, the epilogue (R170) and the response
`OK` (R150). Its operands `t`, `l` are the port register `edge` (log 3). -/

namespace Sys2Proof.Machine

/-- `T_FIRST` (R151): nothing but the epilogue; `state` is unchanged. -/
def execTFirst (s : State) : Result := finishEdge s

/-- `T_IDLE_IGNORE` (R153): nothing but the epilogue. -/
def execTIdleIgnore (s : State) : Result := finishEdge s

/-- `T_IDLE_LEADER` (R154): `IDLE` and `LEADER_LOW` passed on the same edge (R171). -/
def execTIdleLeader (s : State) : Result := finishEdge (setState .leaderHigh (emitLeader .low s))

/-- `T_IDLE_POL` (R155). -/
def execTIdlePol (s : State) : Result := silentReset s

/-- `T_TIMEOUT_LL` (R152). -/
def execTTimeoutLl (s : State) : Result := warnAndReset .idleTimeout s

/-- `T_TIMEOUT_LH` (R152). -/
def execTTimeoutLh (s : State) : Result := warnAndReset .idleTimeout s

/-- `T_TIMEOUT_DL` (R152). -/
def execTTimeoutDl (s : State) : Result := warnAndReset .idleTimeout s

/-- `T_TIMEOUT_DH` (R152). -/
def execTTimeoutDh (s : State) : Result := warnAndReset .idleTimeout s

/-- `T_TIMEOUT_SEP` (R152). -/
def execTTimeoutSep (s : State) : Result := warnAndReset .idleTimeout s

/-- `T_LL_OK` (R156). -/
def execTLlOk (s : State) : Result := finishEdge (setState .leaderHigh (emitLeader .low s))

/-- `T_LL_BAD` (R157). -/
def execTLlBad (s : State) : Result := warnAndReset .leadLowTiming s

/-- `T_LL_POL` (R158). -/
def execTLlPol (s : State) : Result := silentReset s

/-- `T_LH_OK` (R159): `acc`, `bit_count`, `buf` and `byte_count` are written 0; the start latches
are not written. -/
def execTLhOk (s : State) : Result :=
  let s1 := emitLeader .high s
  let d2 := { s1.dec with acc := 0, bitCount := 0, buf := emptyBuf, byteCount := 0 }
  finishEdge (setState .dataLow { s1 with dec := d2 })

/-- `T_LH_BAD` (R160). -/
def execTLhBad (s : State) : Result := warnAndReset .leadHighTiming s

/-- `T_LH_POL` (R161). -/
def execTLhPol (s : State) : Result := silentReset s

/-- `T_DL_SEP` (R162): the start latches are not written. -/
def execTDlSep (s : State) : Result := finishEdge (setState .sep s)

/-- `T_DL_BIT` (R163): the bit starts with its low pulse, and so does the byte when the bit is its
first. -/
def execTDlBit (s : State) : Result :=
  let d := s.dec
  let byteStart := if d.bitCount = 0 then d.prevTs else d.byteStart
  finishEdge (setState .dataHigh { s with dec := { d with bitStart := d.prevTs, byteStart := byteStart } })

/-- `T_DL_SKIP` (R164): nothing but the epilogue. -/
def execTDlSkip (s : State) : Result := finishEdge s

/-- `T_DH_BIT0` (R165). -/
def execTDhBit0 (s : State) : Result := decodeBit false s

/-- `T_DH_BIT1` (R166). -/
def execTDhBit1 (s : State) : Result := decodeBit true s

/-- `T_DH_FAIL` (R167). -/
def execTDhFail (s : State) : Result := silentReset s

/-- `T_SEP_OK` (R168): `acc`, `bit_start` and `byte_start` are not written. -/
def execTSepOk (s : State) : Result :=
  let d := s.dec
  let s1 :=
    emit .separator ((d.prevTs : Int) - d.th.bitLow) (min (s.edge.t : Int) (d.prevTs + d.th.sepHigh))
      0 s
  let d2 := { s1.dec with buf := emptyBuf, byteCount := 0, bitCount := 0 }
  finishEdge (setState .leaderLow { s1 with dec := d2 })

/-- `T_SEP_BAD` (R169). -/
def execTSepBad (s : State) : Result := warnAndReset .sepTiming s

end Sys2Proof.Machine
end

