-- ==== Sys2Proof/Machine/EdgeCommand.lean ====
section
/-! DEFINITION. The `EDGE` command (42_fsm.md rule R150): acceptance, classification, dispatch. -/

namespace Sys2Proof.Machine

/-- The meaning of the selected row (30_encoding.md rule R94). -/
def runRow (r : Row) (s : State) : Result :=
  match r with
  | .tFirst => execTFirst s
  | .tIdleIgnore => execTIdleIgnore s
  | .tIdleLeader => execTIdleLeader s
  | .tIdlePol => execTIdlePol s
  | .tTimeoutLl => execTTimeoutLl s
  | .tTimeoutLh => execTTimeoutLh s
  | .tTimeoutDl => execTTimeoutDl s
  | .tTimeoutDh => execTTimeoutDh s
  | .tTimeoutSep => execTTimeoutSep s
  | .tLlOk => execTLlOk s
  | .tLlBad => execTLlBad s
  | .tLlPol => execTLlPol s
  | .tLhOk => execTLhOk s
  | .tLhBad => execTLhBad s
  | .tLhPol => execTLhPol s
  | .tDlSep => execTDlSep s
  | .tDlBit => execTDlBit s
  | .tDlSkip => execTDlSkip s
  | .tDhBit0 => execTDhBit0 s
  | .tDhBit1 => execTDhBit1 s
  | .tDhFail => execTDhFail s
  | .tSepOk => execTSepOk s
  | .tSepBad => execTSepBad s

/-- An `EDGE` outside a session, or not later than the edge before it, is refused (42_fsm.md rule
R150; 60_exceptions.md rule R249). -/
def edgeAccepted (d : DecoderState) (e : Edge) : Bool :=
  d.running && !(d.prevValid && decide (e.t ≤ d.prevTs))

/-- `EDGE` (42_fsm.md rule R150): the acceptance checks, the latch of the operands on the port, and
the one transition whose row matches the dispatch vector, with the epilogue and the response. -/
def execEdge (t : Nat) (lvl : Level) (s : State) : Result :=
  let e : Edge := { t := t, lvl := lvl }
  if edgeAccepted s.dec e then
    match selectRow s.dec e with
    | some r => runRow r { s with edge := e }
    | none => .refused .noTransitionRow
  else refuse s

end Sys2Proof.Machine
end

