-- ==== Sys2Proof/Machine/HostCommands.lean ====
section
/-! DEFINITION. The host commands other than `SET_RATE` and `EDGE` (44_host_ops.md). -/

namespace Sys2Proof.Machine

/-- `SET_POL` (44_host_ops.md rule R221): recorded, and read by no rule. -/
def execSetPol (lvl : Level) (s : State) : Result :=
  .next (respond .ok { s with dec := { s.dec with polarity := Polarity.ofLevel lvl } })

/-- `START` (44_host_ops.md rule R222). -/
def execStart (s : State) : Result :=
  if s.dec.running then refuse s
  else if s.dec.rateValid then
    .next (respond .ok { s with dec := { clearSession s.dec with running := true } })
  else raiseMissingSampleRate s

/-- `END` (44_host_ops.md rule R223): nothing is emitted, nothing flushed. -/
def execEndInput (s : State) : Result :=
  if s.dec.running then
    .next (respond .ok { s with dec := { clearSession s.dec with running := false } })
  else refuse s

/-- Reserved opcode `0b000` (44_host_ops.md rule R224). -/
def execReserved000 (s : State) : Result := refuse s

/-- Reserved opcode `0b110` (44_host_ops.md rule R224). -/
def execReserved110 (s : State) : Result := refuse s

/-- Reserved opcode `0b111` (44_host_ops.md rule R224). -/
def execReserved111 (s : State) : Result := refuse s

end Sys2Proof.Machine
end

