-- ==== Sys2Proof/Machine/Dispatch.lean ====
section
/-! DEFINITION. Dispatch: one arm per row of the opcode table. -/

namespace Sys2Proof.Machine

def exec (i : Instr) (s : State) : Host.Outcome State Fault Refusal :=
  match i with
  | .setRate rate => Sys2Proof.Machine.execSetRate rate s
  | .setPol lvl => Sys2Proof.Machine.execSetPol lvl s
  | .start => Sys2Proof.Machine.execStart s
  | .edge t lvl => Sys2Proof.Machine.execEdge t lvl s
  | .endInput => Sys2Proof.Machine.execEndInput s
  | .reserved000 => Sys2Proof.Machine.execReserved000 s
  | .reserved110 => Sys2Proof.Machine.execReserved110 s
  | .reserved111 => Sys2Proof.Machine.execReserved111 s
  | .tFirst => Sys2Proof.Machine.execTFirst s
  | .tIdleIgnore => Sys2Proof.Machine.execTIdleIgnore s
  | .tIdleLeader => Sys2Proof.Machine.execTIdleLeader s
  | .tIdlePol => Sys2Proof.Machine.execTIdlePol s
  | .tTimeoutLl => Sys2Proof.Machine.execTTimeoutLl s
  | .tTimeoutLh => Sys2Proof.Machine.execTTimeoutLh s
  | .tTimeoutDl => Sys2Proof.Machine.execTTimeoutDl s
  | .tTimeoutDh => Sys2Proof.Machine.execTTimeoutDh s
  | .tTimeoutSep => Sys2Proof.Machine.execTTimeoutSep s
  | .tLlOk => Sys2Proof.Machine.execTLlOk s
  | .tLlBad => Sys2Proof.Machine.execTLlBad s
  | .tLlPol => Sys2Proof.Machine.execTLlPol s
  | .tLhOk => Sys2Proof.Machine.execTLhOk s
  | .tLhBad => Sys2Proof.Machine.execTLhBad s
  | .tLhPol => Sys2Proof.Machine.execTLhPol s
  | .tDlSep => Sys2Proof.Machine.execTDlSep s
  | .tDlBit => Sys2Proof.Machine.execTDlBit s
  | .tDlSkip => Sys2Proof.Machine.execTDlSkip s
  | .tDhBit0 => Sys2Proof.Machine.execTDhBit0 s
  | .tDhBit1 => Sys2Proof.Machine.execTDhBit1 s
  | .tDhFail => Sys2Proof.Machine.execTDhFail s
  | .tSepOk => Sys2Proof.Machine.execTSepOk s
  | .tSepBad => Sys2Proof.Machine.execTSepBad s

end Sys2Proof.Machine
end

