-- ==== Sys2Proof/Machine/Fetch.lean ====
section
/-! DEFINITION. Fetch: the command port, the hardware reset input, and how a word of the opcode table
is placed where the next step runs it (log 2). -/

namespace Sys2Proof.Machine

/-- The host's next input, and the state with it taken off the port (20_memory.md rules R68, R71). -/
def takeInput (s : State) : Option (HostInput × State) :=
  match s.pending with
  | [] => none
  | x :: rest => some (x, { s with pending := rest })

/-- Hardware reset, at the release of the reset input (70_reset_and_hazards.md rule R280): every
register and port at its reset value. What the host has yet to issue is not the core's and stays
(log 6). -/
def hardwareReset (s : State) : State := { State.reset with pending := s.pending }

/-- The core while the reset input is asserted: held at its reset values (log 6). -/
def holdInReset (s : State) : State := { hardwareReset s with resetAsserted := true }

/-- The host drives the reset input (70_reset_and_hazards.md rule R280). Releasing an input that is
not asserted changes nothing. -/
def driveReset (asserted : Bool) (s : State) : State :=
  if asserted then holdInReset s else if s.resetAsserted then hardwareReset s else s

/-- "While it is asserted no command is accepted" (70_reset_and_hazards.md rule R280). -/
def acceptsCommand (s : State) : Bool := !s.resetAsserted

/-- A command issued while none is accepted is not executed: no register is written, nothing is
emitted, and no response is given, since R87 gives one after a command completes (log 6). -/
def commandNotAccepted (s : State) : State := s

/-- The idle wait for the next command: nothing changes (20_memory.md rule R71; log 5). -/
def idleWait (s : State) : State := s

/-- The host issues a command word ahead of everything it has issued, with the reset input released
so that the word is accepted (log 2). -/
def issueFirst (w : CmdWord) (s : State) : State :=
  { s with pending := .command w :: s.pending, resetAsserted := false }

/-! ### A transition row as the next thing that runs

A row is not fetched on its own: an accepted `EDGE` runs it when its dispatch vector selects it
(00_scope.md rule R5; 30_encoding.md rule R93). To make the next step run the row of a vector `v`,
the registers the vector is formed from are set so that an `EDGE` with timestamp 100, measured from
an edge at 0, forms a vector with the bits of `v` that its row looks at (log 7). -/

/-- The timestamp, and so the pulse width, of that `EDGE`. -/
def rowEdgeT : Nat := 100

/-- A threshold whose band contains the width 100, or one whose band is empty. -/
def bandThreshold (hit : Bool) : Int := if hit then 100 else 0

/-- The levels before and after the edge for the bits `P_rise`, `P_fall`. Both at 1 cannot be formed
(41_classifier.md rule R136); `LEADER_HIGH`, the one state whose rows look at `P_fall`, then takes
the fall and every other state the rise. -/
def rowLevels (st : FsmState) (rise fall : Bool) : Level × Level :=
  if fall && (!rise || st == .leaderHigh) then (.high, .low)
  else if rise then (.low, .high)
  else (.low, .low)

/-- The state register, thresholds, tracker and counters from which the `EDGE` forms the vector. -/
def rowDec (v : DispatchWord) (d : DecoderState) : DecoderState :=
  let st := (FsmState.ofCode (v.extractLsb' 10 3)).getD d.state
  let th : Thresholds :=
    { d.th with
      idle := if v.getLsbD 9 then 99 else 100
      leadLow := bandThreshold (v.getLsbD 6)
      leadHigh := bandThreshold (v.getLsbD 5)
      bitLow := bandThreshold (v.getLsbD 4)
      bit0High := bandThreshold (v.getLsbD 3)
      bit1High := bandThreshold (v.getLsbD 2)
      sepHigh := if v.getLsbD 1 then 0 else 1000 }
  let d1 : DecoderState :=
    { d with
      running := true, prevValid := true, prevTs := 0, state := st, th := th
      prevLevel := (rowLevels st (v.getLsbD 8) (v.getLsbD 7)).1 }
  if v.getLsbD 0 then { d1 with byteCount := Config.blockBytes, bitCount := 0 }
  else if pFull d1 then { d1 with byteCount := 0 }
  else d1

/-- The word of the `EDGE` command that selects the row. -/
def rowEdgeWord (v : DispatchWord) (d : DecoderState) : CmdWord :=
  let st := (FsmState.ofCode (v.extractLsb' 10 3)).getD d.state
  cmdWord 0b100 (rowLevels st (v.getLsbD 8) (v.getLsbD 7)).2.toBit (BitVec.ofNat 64 rowEdgeT)

/-- The state in which the very next step runs the row of `v`. For a vector with `prev_valid` = 0 the
row is `T_FIRST`, which looks at nothing else. -/
def placeRow (v : DispatchWord) (s : State) : State :=
  if v.getLsbD 13 then issueFirst (rowEdgeWord v s.dec) { s with dec := rowDec v s.dec }
  else
    issueFirst (rowEdgeWord v s.dec) { s with dec := { s.dec with running := true, prevValid := false } }

/-- Place a word of the opcode table; a word the decoder refuses places nothing. -/
def placeTableWord (nbits w : Nat) (s : State) : State :=
  match tablePortWord nbits w with
  | .ok (.command c) => issueFirst c s
  | .ok (.dispatch v) =>
    match decodeRow v with
    | some _ => placeRow v s
    | none => s
  | .error _ => s

end Sys2Proof.Machine
end

