-- ==== Sys2Proof/Machine/Step.lean ====
section
/-! DEFINITION. Step: one host input taken and executed to completion (20_memory.md rule R68), or the
idle wait when there is none (R71). -/

namespace Sys2Proof.Machine

/-- One step of the machine. While the reset input is asserted no command is accepted
(70_reset_and_hazards.md rule R280). A transition row runs inside the step of the `EDGE` command that selects
it (42_fsm.md rule R150). -/
def step (s : State) : Host.Outcome State Fault Refusal :=
  match takeInput s with
  | none => .next (idleWait s)
  | some (.resetInput asserted, s1) => .next (driveReset asserted s1)
  | some (.command w, s1) =>
    if acceptsCommand s1 then exec (decodeCmd w) s1 else .next (commandNotAccepted s1)

/-- The state with the word of an opcode-table row placed where the next step runs it (logs 2, 7). -/
def State.withFetchWord (s : State) (nbits w : Nat) : State := placeTableWord nbits w s

end Sys2Proof.Machine
end

