-- ==== Sys2Proof/Machine/Labels.lean ====
section
/-! DEFINITION. Labels: the strings that external tables make from a payload (30_encoding.md rule
R103). They are outside the core: no meaning reads them (20_memory.md rule R62). The points the spec
states are fixed; every other entry is a free constant of Config (log 12). -/

namespace Sys2Proof.Machine

/-- `fan_label` (30_encoding.md rule R103). -/
def fanLabel (code : BitVec 3) : String :=
  if code = 0b101 then "Auto"
  else if code = 0b001 then "High"
  else if code = 0b011 then "Poweroff"
  else Config.fanLabelFree code

/-- `mode_label` (30_encoding.md rule R103; 90_conflicts.md C5). -/
def modeLabel (code : BitVec 2) : String :=
  if code = 0b10 then "Auto" else Config.modeLabelFree code

/-- `addr_label` (30_encoding.md rule R103). -/
def addrLabel (v : Byte) : String :=
  if v = Config.expectedAddr then "Address: 0xB2" else Config.addrLabelFree v

/-- The label of a temperature: "T followed by °C" (30_encoding.md rule R103). -/
def temperatureLabel (v : Byte) : String := toString v.toNat ++ "°C"

/-- The label of a `command` payload by its sub-kind (30_encoding.md rules R90, R103). -/
def commandLabel (data : Byte) : Option String :=
  if data.extractLsb' 6 2 = commandSubCode .fanSpeed then some (fanLabel (data.extractLsb' 0 3))
  else if data.extractLsb' 6 2 = commandSubCode .mode then some (modeLabel (data.extractLsb' 0 2))
  else if data.extractLsb' 6 2 = commandSubCode .fanOnly then some "Fan"
  else none

/-- The label of an annotation, for the kinds whose label the spec states (30_encoding.md rule R103;
91_not_in_source.md N21 for the others). -/
def annotationLabel (a : Annotation) : Option String :=
  match a.kind with
  | .address => some (addrLabel a.data)
  | .command => commandLabel a.data
  | .temperature => some (temperatureLabel a.data)
  | .bit | .leader | .separator | .byte | .packet | .warning => none

end Sys2Proof.Machine
end

