-- ==== Sys2Proof/Machine/Trace.lean ====
section
/-! DEFINITION. Trace: the spec's textual notation for command sequences (30_encoding.md rules R101,
R102), as data: a line, its command, the pseudo-commands and their expansion; and the run of a list
of commands one after the other (20_memory.md rule R70). -/

namespace Sys2Proof.Machine

/-- A line of the notation (30_encoding.md rule R101). -/
inductive TraceLine where
  | rate (r : Nat)
  | pol (l : Level)
  | start
  | edge (t : Nat) (l : Level)
  | endInput
  deriving DecidableEq, Repr

/-- The command of a line (30_encoding.md rule R101). -/
def lineInstr : TraceLine → Instr
  | .rate r => .setRate r
  | .pol l => .setPol l
  | .start => .start
  | .edge t l => .edge t l
  | .endInput => .endInput

/-- A line or a pseudo-command (30_encoding.md rule R102). -/
inductive PseudoLine where
  | line (x : TraceLine)
  | pulse (w : Nat)
  | leader
  | bit0
  | bit1
  | byte (v : Byte)
  | sep
  deriving DecidableEq, Repr

/-- The text-level cursor (30_encoding.md rule R102): the rate of the last `rate` line and the last
`edge` line, if any. -/
structure Cursor where
  rate : Option Nat
  last : Option Edge
  deriving DecidableEq, Repr

/-- The other level, `1 - L` (30_encoding.md rule R102). -/
def otherLevel : Level → Level
  | .low => .high
  | .high => .low

/-- `N(us)`, "used only where the quotient is a whole number" (30_encoding.md rule R102). -/
def nominalWidth (rate us : Nat) : Option Nat :=
  if rate * us % 1000000 = 0 then some (rate * us / 1000000) else none

/-- The cursor after a plain line. -/
def cursorAfter (x : TraceLine) (c : Cursor) : Cursor :=
  match x with
  | .rate r => { c with rate := some r }
  | .edge t l => { c with last := some { t := t, lvl := l } }
  | .pol _ | .start | .endInput => c

/-- An expansion: lines and the cursor after them, or none where the rule gives no meaning (no edge
yet, no rate yet, or a quotient that is not whole; log 19). -/
abbrev Expansion := Cursor → Option (List TraceLine × Cursor)

/-- One expansion after another. -/
def expandSeq (f g : Expansion) : Expansion := fun c =>
  match f c with
  | none => none
  | some (xs, c1) =>
    match g c1 with
    | none => none
    | some (ys, c2) => some (xs ++ ys, c2)

/-- `pulse <w>` (30_encoding.md rule R102). -/
def expandPulse (w : Nat) : Expansion := fun c =>
  match c.last with
  | none => none
  | some e =>
    let x := TraceLine.edge (e.t + w) (otherLevel e.lvl)
    some ([x], cursorAfter x c)

/-- `pulse N(us)` (30_encoding.md rule R102). -/
def expandNominal (us : Nat) : Expansion := fun c =>
  match c.rate with
  | none => none
  | some r =>
    match nominalWidth r us with
    | none => none
    | some w => expandPulse w c

/-- `bit0` or `bit1` (30_encoding.md rule R102). -/
def expandBit (b : Bool) : Expansion :=
  expandSeq (expandNominal Config.usBitLow)
    (expandNominal (if b then Config.usBit1High else Config.usBit0High))

/-- Bits in the order given. -/
def expandBits : List Bool → Expansion
  | [] => fun c => some ([], c)
  | b :: bs => expandSeq (expandBit b) (expandBits bs)

/-- The bits of a byte, bit 7 first (20_memory.md rule R64). -/
def byteBitsMsbFirst (v : Byte) : List Bool :=
  [v.getLsbD 7, v.getLsbD 6, v.getLsbD 5, v.getLsbD 4, v.getLsbD 3, v.getLsbD 2, v.getLsbD 1,
    v.getLsbD 0]

/-- The expansion of one line or pseudo-command (30_encoding.md rule R102). -/
def expandLine : PseudoLine → Expansion
  | .line x => fun c => some ([x], cursorAfter x c)
  | .pulse w => expandPulse w
  | .leader => expandSeq (expandNominal Config.usLeadLow) (expandNominal Config.usLeadHigh)
  | .bit0 => expandBit false
  | .bit1 => expandBit true
  | .byte v => expandBits (byteBitsMsbFirst v)
  | .sep => expandSeq (expandNominal Config.usSepLow) (expandNominal Config.usSepHigh)

/-- The expansion of a text. -/
def expandText : List PseudoLine → Expansion
  | [] => fun c => some ([], c)
  | p :: ps => expandSeq (expandLine p) (expandText ps)

/-- A text that begins with nothing said: no rate, no edge. -/
def Cursor.initial : Cursor := { rate := none, last := none }

/-- The level as an adapter outside the core would hand it on: inverted while the polarity option is
active-high, if the adapter inverts at all (93_implementation_defined.md entry U2). -/
def adaptLevel (invert : Bool) (p : Polarity) (l : Level) : Level :=
  if invert && p == .activeHigh then otherLevel l else l

/-- An `EDGE` command behind that adapter. `POLARITY_INVERT` is `false`, so the adapter hands every
edge on as it is (44_host_ops.md rule R221; 92_eei_decisions.md D16; log 16). -/
def adaptEdge (d : DecoderState) (t : Nat) (l : Level) : Instr :=
  .edge t (adaptLevel Config.polarityInvert d.polarity l)

/-- Commands executed one after the other (20_memory.md rule R70), stopping at the first that does
not answer a next state. -/
def execAll : List Instr → State → Result
  | [], s => .next s
  | i :: is, s => andThen (exec i s) (execAll is)

end Sys2Proof.Machine
end

