-- ==== Sys2Proof/Safety.lean ====
section
/-! DEFINITION. Safety: the invariant of 10_state.md rule R43, the records the core may emit
(30_encoding.md rules R90, R98), and what a safe run is (60_exceptions.md rule R257). -/

namespace Sys2Proof.Safety

open Sys2Proof.Machine

/-- The block state is clear (10_state.md rule R43 (h); 60_exceptions.md rule R252). -/
def BlockClear (d : DecoderState) : Prop :=
  d.acc = 0 ∧ d.bitCount = 0 ∧ d.buf = emptyBuf ∧ d.byteCount = 0 ∧ d.bitStart = 0 ∧ d.byteStart = 0

/-- The invariant of 10_state.md rule R43, (a) to (h) under the spec's letters, and four facts that
the rules give beside it. -/
structure CoreInv (d : DecoderState) : Prop where
  /-- R43 (a). -/
  bitCount_le : d.bitCount ≤ 7
  /-- R43 (b). -/
  byteCount_le : d.byteCount ≤ 6
  /-- R43 (c). -/
  acc_lt : d.acc.toNat < 2 ^ d.bitCount
  /-- R43 (d). -/
  leader_clear : d.state = .idle ∨ d.state = .leaderLow ∨ d.state = .leaderHigh →
    d.bitCount = 0 ∧ d.byteCount = 0 ∧ d.acc = 0
  /-- R43 (e). -/
  sep_full : d.state = .sep → d.byteCount = 6 ∧ d.bitCount = 0
  /-- R43 (f). -/
  dataHigh_open : d.state = .dataHigh →
    ¬ (d.byteCount = 6 ∧ d.bitCount = 0) ∧ d.byteCount ≤ 5
  /-- R43 (g). -/
  running_rate : d.running = true → d.rateValid = true
  /-- R43 (h). -/
  stopped_clear : d.running = false → d.state = .idle ∧ d.prevValid = false ∧ BlockClear d
  /-- What the "hence" of R43 (f) rests on: no bit is pending after the sixth byte. DEDUCED from
  42_fsm.md rules R162, R163. -/
  full_no_pending : d.byteCount = 6 → d.bitCount = 0
  /-- "`prev_valid` = 0 only directly after `START`" (42_fsm.md rule R151). -/
  first_idle : d.prevValid = false → d.state = .idle
  /-- The thresholds are those of the last announced rate (10_state.md rules R30 to R39). -/
  calibrated : d.rateValid = true → 0 < d.rate ∧ d.th = calibrate d.rate
  /-- Before any rate is announced the configuration is at reset (10_state.md rule R44). -/
  uncalibrated : d.rateValid = false → d.rate = 0 ∧ d.th = Thresholds.zero
  /-- Bytes at and above `byte_count` are 0 (10_state.md rules R25, R44). DEDUCED. -/
  buf_tail : ∀ i, d.byteCount ≤ i → i < 6 → bufByte d i = some 0

/-- A payload the rules produce for its kind (30_encoding.md rules R90, R91, R96, R98). -/
def legalPayload (kind : AnnKind) (data : Byte) : Prop :=
  match kind with
  | .bit | .leader => data = 0 ∨ data = 1
  | .separator => data = 0
  | .byte | .address => True
  | .command => data.extractLsb' 6 2 ≠ 0b11 ∧ data.extractLsb' 3 3 = 0 ∧
      (data.extractLsb' 6 2 ≠ 0b00 → data.getLsbD 2 = false)
  | .packet => False
  | .warning => 1 ≤ data.toNat ∧ data.toNat ≤ 4
  | .temperature => 17 ≤ data.toNat ∧ data.toNat ≤ 30

/-- Every record of the annotation stream is one the rules produce. -/
def LegalOut (s : State) : Prop := ∀ a ∈ s.out, legalPayload a.kind a.data

/-- While the reset input is asserted the core is at its reset values, its ports are empty and nothing
has been answered (70_reset_and_hazards.md rule R280). -/
def HeldInReset (s : State) : Prop :=
  s.resetAsserted = true →
    s.dec = DecoderState.reset ∧ s.out = [] ∧ s.responses = [] ∧ lifecycle s.dec = .unconfigured

/-- What every reachable state satisfies. -/
def Inv (s : State) : Prop := CoreInv s.dec ∧ LegalOut s

/-! ### The words that statements about the edge step use -/

/-- The width `w` lies in the tolerance band of the threshold `b`: `85 b ≤ 100 w ≤ 115 b`
(41_classifier.md rule R131). -/
def InWindow (w : Nat) (b : Int) : Prop := 85 * b ≤ 100 * (w : Int) ∧ 100 * (w : Int) ≤ 115 * b

/-- An `EDGE` with timestamp `t` is accepted and ends a measured pulse (42_fsm.md rule R150). -/
structure Measured (d : DecoderState) (t : Nat) : Prop where
  running : d.running = true
  prevValid : d.prevValid = true
  later : d.prevTs < t

/-- The pulse that an edge at `t` ends is not over-long (41_classifier.md rule R134). -/
def NotIdle (d : DecoderState) (t : Nat) : Prop := ((t - d.prevTs : Nat) : Int) ≤ d.th.idle

/-- The edge is a rise: from level 0 to level 1 (00_scope.md rule R9). -/
def Rise (d : DecoderState) (l : Level) : Prop := d.prevLevel = .low ∧ l = .high

/-- The edge is a fall: from level 1 to level 0 (00_scope.md rule R9). -/
def Fall (d : DecoderState) (l : Level) : Prop := d.prevLevel = .high ∧ l = .low

/-- The state with the operands of an `EDGE` command on the port. -/
def withEdge (s : State) (t : Nat) (l : Level) : State := { s with edge := { t := t, lvl := l } }

/-- An edge step that leaves the core as `d` but for the edge tracker, emits `anns` and answers `OK`:
every field is said. -/
def edgeDone (s : State) (d : DecoderState) (anns : List Annotation) : Result :=
  .next
    { dec := { d with prevValid := true, prevTs := s.edge.t, prevLevel := s.edge.lvl }
      edge := s.edge
      resetAsserted := s.resetAsserted
      pending := s.pending
      out := s.out ++ anns
      responses := s.responses ++ [.ok] }

/-- A command that is answered with `r` and has no other effect: every field is said. -/
def onlyAnswered (s : State) (r : Response) : Result :=
  .next
    { dec := s.dec, edge := s.edge, resetAsserted := s.resetAsserted, pending := s.pending
      out := s.out
      responses := s.responses ++ [r] }

/-- A command that leaves the core as `d` and answers `OK`, with nothing emitted. -/
def commandDone (s : State) (d : DecoderState) : Result :=
  .next
    { dec := d, edge := s.edge, resetAsserted := s.resetAsserted, pending := s.pending, out := s.out
      responses := s.responses ++ [.ok] }

/-- The full reset of 60_exceptions.md rule R252, register by register. -/
def cleared (d : DecoderState) : DecoderState :=
  { d with
    state := .idle, acc := 0, bitCount := 0, buf := #v[0, 0, 0, 0, 0, 0], byteCount := 0,
    bitStart := 0, byteStart := 0 }

/-- A record over the pulse `[prev_ts, t]`. -/
def overPulse (s : State) (kind : AnnKind) (data : Byte) : Annotation :=
  { kind := kind, data := data, start := s.dec.prevTs, stop := s.edge.t }

/-- The length in samples of a field whose bits are `bs`, by the reading of 43_assembler.md rule
R194: "every bit contributes one `th_bit_low` for its low pulse; a 1 bit contributes `th_bit1_high`
for its high pulse; a 0 bit contributes a second `th_bit_low` for its high pulse". -/
def bitsLength (th : Thresholds) (bs : List Bool) : Int :=
  (bs.map fun b => th.bitLow + (if b then th.bit1High else th.bitLow)).sum

/-- The field records of a byte `v` finalized with index `i` at time `t` (43_assembler.md rules R192,
R193, R195, R196, R197), written with shifts and masks and the bits themselves. -/
def fieldRecords (d : DecoderState) (t : Nat) (i : Nat) (v : Byte) : List Annotation :=
  let temp := grayTemp ((v >>> 4).setWidth 4)
  let tempStop := (d.byteStart : Int) +
    bitsLength d.th [v.getLsbD 7, v.getLsbD 6, v.getLsbD 5, v.getLsbD 4]
  if i = 0 then [{ kind := .address, data := v, start := d.byteStart, stop := t }]
  else if i = 2 then
    [{ kind := .command, data := v >>> 5, start := d.byteStart,
       stop := d.byteStart + bitsLength d.th [v.getLsbD 7, v.getLsbD 6, v.getLsbD 5] }]
  else if i = 4 then
    (if temp = 31 then []
      else
        [{ kind := .temperature, data := BitVec.ofNat 8 temp, start := d.byteStart,
           stop := tempStop }]) ++
    [{ kind := .command, data := (if temp = 31 then 0x80 else 0x40) + ((v >>> 2) &&& 3),
       start := tempStop, stop := tempStop + bitsLength d.th [v.getLsbD 3, v.getLsbD 2] }]
  else []

/-- The transition of an accepted edge in the source's own order (42_fsm.md rule R150: "The same
selection in the source's own order"; 60_exceptions.md rule R251). -/
def sourceOrderRow (d : DecoderState) (e : Edge) : Row :=
  let w := e.t - d.prevTs
  if !d.prevValid then .tFirst
  else if d.state ≠ .idle ∧ d.th.idle < (w : Int) then
    match d.state with
    | .idle => .tIdleIgnore
    | .leaderLow => .tTimeoutLl
    | .leaderHigh => .tTimeoutLh
    | .dataLow => .tTimeoutDl
    | .dataHigh => .tTimeoutDh
    | .sep => .tTimeoutSep
  else
    match d.state with
    | .idle =>
      if !near w d.th.leadLow then .tIdleIgnore
      else if d.prevLevel = .low ∧ e.lvl = .high then .tIdleLeader
      else .tIdlePol
    | .leaderLow =>
      if d.prevLevel = .low ∧ e.lvl = .high then
        (if near w d.th.leadLow then .tLlOk else .tLlBad)
      else .tLlPol
    | .leaderHigh =>
      if d.prevLevel = .high ∧ e.lvl = .low then
        (if near w d.th.leadHigh then .tLhOk else .tLhBad)
      else .tLhPol
    | .dataLow =>
      if near w d.th.bitLow then
        (if d.byteCount = 6 ∧ d.bitCount = 0 then .tDlSep else .tDlBit)
      else .tDlSkip
    | .dataHigh =>
      if near w d.th.bit0High then .tDhBit0
      else if near w d.th.bit1High then .tDhBit1
      else .tDhFail
    | .sep => if 85 * d.th.sepHigh < 100 * (w : Int) then .tSepOk else .tSepBad

/-- The next states of the FSM's graph (42_fsm.md rule R172), for an edge that ends a measured
pulse. -/
def graphNext : FsmState → List FsmState
  | .idle => [.idle, .leaderHigh]
  | .leaderLow => [.leaderHigh, .idle]
  | .leaderHigh => [.dataLow, .idle]
  | .dataLow => [.dataLow, .dataHigh, .sep, .idle]
  | .dataHigh => [.dataLow, .idle]
  | .sep => [.leaderLow, .idle]

/-- The response and the mode afterwards, by the acceptance table of 44_host_ops.md rule R220; `none`
for a transition row, which is no command of its own. -/
def acceptance (i : Instr) (d : DecoderState) : Option (Response × Lifecycle) :=
  let m := lifecycle d
  match i with
  | .setRate rate =>
    if rate = 0 then some (.errRefused, m)
    else
      match m with
      | .unconfigured => some (.ok, .configured)
      | .configured => some (.ok, .configured)
      | .running => some (.ok, .running)
  | .setPol _ => some (.ok, m)
  | .start =>
    match m with
    | .unconfigured => some (.errMissingRate, .unconfigured)
    | .configured => some (.ok, .running)
    | .running => some (.errRefused, .running)
  | .edge t _ =>
    match m with
    | .unconfigured => some (.errRefused, .unconfigured)
    | .configured => some (.errRefused, .configured)
    | .running =>
      if d.prevValid = true ∧ t ≤ d.prevTs then some (.errRefused, .running)
      else some (.ok, .running)
  | .endInput =>
    match m with
    | .unconfigured => some (.errRefused, .unconfigured)
    | .configured => some (.errRefused, .configured)
    | .running => some (.ok, .configured)
  | .reserved000 | .reserved110 | .reserved111 => some (.errRefused, m)
  | .tFirst | .tIdleIgnore | .tIdleLeader | .tIdlePol => none
  | .tTimeoutLl | .tTimeoutLh | .tTimeoutDl | .tTimeoutDh | .tTimeoutSep => none
  | .tLlOk | .tLlBad | .tLlPol | .tLhOk | .tLhBad | .tLhPol => none
  | .tDlSep | .tDlBit | .tDlSkip | .tDhBit0 | .tDhBit1 | .tDhFail | .tSepOk | .tSepBad => none

/-- Two cores that differ at most in the registers no rule reads: `polarity` (10_state.md rule R40),
`th_sep_low` (R34) and `rate` (R30). -/
def AgreeButDead (d1 d2 : DecoderState) : Prop :=
  { d1 with
    polarity := d2.polarity
    rate := d2.rate
    th := { d1.th with sepLow := d2.th.sepLow } } = d2

/-- Two machines that differ at most in those registers. -/
def AgreeState (s1 s2 : State) : Prop :=
  AgreeButDead s1.dec s2.dec ∧ s1.edge = s2.edge ∧ s1.resetAsserted = s2.resetAsserted ∧
    s1.pending = s2.pending ∧ s1.out = s2.out ∧ s1.responses = s2.responses

/-! ### Symbols of the line code (30_encoding.md rule R80) -/

/-- A bit symbol: its value and the measured widths of its low and its high pulse. -/
structure BitSymbol where
  value : Bool
  low : Nat
  high : Nat
  deriving DecidableEq, Repr

/-- The two pulses lie in the windows of the bit's value (30_encoding.md rule R80). -/
def BitSymbol.fits (th : Thresholds) (b : BitSymbol) : Prop :=
  0 < b.low ∧ 0 < b.high ∧ InWindow b.low th.bitLow ∧
    InWindow b.high (if b.value then th.bit1High else th.bit0High)

/-- The duration of a sequence of symbols. -/
def duration (bs : List BitSymbol) : Nat := (bs.map fun b => b.low + b.high).sum

/-- The edges of a sequence of bit symbols whose first low pulse begins at `t`. -/
def symbolEdges (t : Nat) : List BitSymbol → List Instr
  | [] => []
  | b :: bs => .edge (t + b.low) .high :: .edge (t + b.low + b.high) .low ::
      symbolEdges (t + b.low + b.high) bs

/-- The value of bits received most significant first (20_memory.md rule R64). -/
def msbValue (bs : List Bool) : Nat := bs.foldl (fun n b => 2 * n + b.toNat) 0

/-- The records of one kind, in order. -/
def ofKind (k : AnnKind) (as : List Annotation) : List Annotation := as.filter (·.kind = k)

/-- A safe run: the machine never stops (60_exceptions.md rule R257: "Nothing halts the core"). -/
def NeverStops (s : State) : Prop := ∀ k, ∃ s', Sys2Proof.core.run k s = Host.Outcome.next s'

end Sys2Proof.Safety
end

