-- ==== Sys2Proof/Certificates/Slice0/Obligations.lean ====
section
/-! DEFINITION. Obligations: the statements for the provers. Each cites its rule of spec/. -/

open Sys2Proof Sys2Proof.Machine Sys2Proof.Safety

/-! ### Encodings -/

/-- Words written out from 30_encoding.md rules R85, R86 and R94 decode to what they stand for. -/
def Obligations.WordsDecodeAsListed : Prop :=
  decode (.command 0x200000000000F4240) = .ok (.setRate 1000000) ∧
  decode (.command 0x50000000000000000) = .ok (.setPol .high) ∧
  decode (.command 0x9000000000000157C) = .ok (.edge 5500 .high) ∧
  decode (.command 0xA0000000000000000) = .ok .endInput ∧
  decode (.command 0xD0000000000000005) = .ok .reserved110 ∧
  decode (.dispatch 0b10000101100010) = .ok .tIdleLeader ∧
  decode (.dispatch 0b11000010000100) = .ok .tDhBit1 ∧
  decode (.dispatch 0b11011010000011) = .ok .tTimeoutSep

/-- Decoding the word of any well-formed instruction gives that instruction back, every operand at
every value its field admits. -/
def Obligations.DecodeOfEncodeIsIdentity : Prop :=
  ∀ i : Instr, i.wf = true → decode (encode i) = .ok i

/-- 30_encoding.md rules R85, R86: `op` is the word divided by 2^65, `lvl` its bit 64, `arg` its
remainder by 2^64; each opcode reads only the fields it uses; `lvl` of `SET_POL` is the polarity. -/
def Obligations.CommandFieldsSelectInstruction : Prop :=
  Polarity.ofLevel .low = .activeLow ∧ Polarity.ofLevel .high = .activeHigh ∧ ∀ w : CmdWord,
    let op := w.toNat / 2 ^ 65
    let lvl := if w.toNat / 2 ^ 64 % 2 = 1 then Level.high else Level.low
    let arg := w.toNat % 2 ^ 64
    (op = 0 → decodeCmd w = .reserved000) ∧ (op = 1 → decodeCmd w = .setRate arg) ∧
    (op = 2 → decodeCmd w = .setPol lvl) ∧ (op = 3 → decodeCmd w = .start) ∧
    (op = 4 → decodeCmd w = .edge arg lvl) ∧ (op = 5 → decodeCmd w = .endInput) ∧
    (op = 6 → decodeCmd w = .reserved110) ∧ (op = 7 → decodeCmd w = .reserved111) ∧ op ≤ 7

/-- 30_encoding.md rule R94: the rows are pairwise disjoint, and together cover every vector with
`prev_valid` = 0 or a state code `0b000` to `0b101`; every other vector is refused by name. -/
def Obligations.TransitionRowsDisjointAndCovering : Prop :=
  (∀ (v : DispatchWord), ∀ p ∈ rowTable, ∀ q ∈ rowTable,
    v &&& p.mask = p.matchBits → v &&& q.mask = q.matchBits → p = q) ∧
  (∀ v : DispatchWord, v.getLsbD 13 = false ∨ (v.extractLsb' 10 3).toNat ≤ 5 →
    ∃ p ∈ rowTable, v &&& p.mask = p.matchBits ∧ decode (.dispatch v) = .ok p.row.toInstr) ∧
  (∀ v : DispatchWord, v.getLsbD 13 = true → 6 ≤ (v.extractLsb' 10 3).toNat →
    decode (.dispatch v) = .error .unassignedStateCode)

/-- 30_encoding.md rules R91, R92: the warning causes and the state codes; and the codes of the
annotation kinds (R89) and of the `command` sub-kinds (R90). -/
def Obligations.PortCodes : Prop :=
  [WarningCause.idleTimeout, .leadLowTiming, .leadHighTiming, .sepTiming].map warningCauseCode =
    [1, 2, 3, 4] ∧
  [FsmState.idle, .leaderLow, .leaderHigh, .dataLow, .dataHigh, .sep].map FsmState.code =
    [0b000, 0b001, 0b010, 0b011, 0b100, 0b101] ∧
  FsmState.ofCode 0b110 = none ∧ FsmState.ofCode 0b111 = none ∧
  [AnnKind.bit, .leader, .separator, .byte, .address, .command, .packet, .warning,
    .temperature].map annKindCode = [0, 1, 2, 3, 4, 5, 6, 7, 8] ∧
  [CommandSub.fanSpeed, .mode, .fanOnly].map commandSubCode = [0b00, 0b01, 0b10]

/-- 30_encoding.md rule R93: every bit of the dispatch vector of a measured pulse; the row is a
function of the vector alone, and with `prev_valid` = 0 its other bits are not used. -/
def Obligations.DispatchVectorBits : Prop :=
  (∀ (d1 d2 : DecoderState) (e1 e2 : Edge), dispatchVector d1 e1 = dispatchVector d2 e2 →
    selectRow d1 e1 = selectRow d2 e2) ∧
  (∀ v : DispatchWord, v.getLsbD 13 = false → decode (.dispatch v) = .ok .tFirst) ∧
  ∀ (d : DecoderState) (e : Edge),
    let v := dispatchVector d e
    let w := e.t - d.prevTs
    v.getLsbD 13 = d.prevValid ∧ v.extractLsb' 10 3 = d.state.code ∧
    (v.getLsbD 0 = true ↔ d.byteCount = 6 ∧ d.bitCount = 0) ∧
    (d.prevValid = true →
      (v.getLsbD 9 = true ↔ d.th.idle < (w : Int)) ∧
      (v.getLsbD 8 = true ↔ Rise d e.lvl) ∧ (v.getLsbD 7 = true ↔ Fall d e.lvl) ∧
      (v.getLsbD 6 = true ↔ InWindow w d.th.leadLow) ∧
      (v.getLsbD 5 = true ↔ InWindow w d.th.leadHigh) ∧
      (v.getLsbD 4 = true ↔ InWindow w d.th.bitLow) ∧
      (v.getLsbD 3 = true ↔ InWindow w d.th.bit0High) ∧
      (v.getLsbD 2 = true ↔ InWindow w d.th.bit1High) ∧
      (v.getLsbD 1 = true ↔ 85 * d.th.sepHigh < 100 * (w : Int)))

/-- 42_fsm.md rule R150 and 60_exceptions.md rule R251: the match/mask rows select what the source's
own order of tests selects. -/
def Obligations.RowSelectionFollowsSourceOrder : Prop :=
  ∀ (d : DecoderState) (e : Edge), selectRow d e = some (sourceOrderRow d e)

/-! ### The step -/

/-- The step takes the oldest command word off the port and, with the reset input released, runs the
instruction it decodes to; for every well-formed command that is `exec` of that command (20_memory.md
rule R68). With the reset input asserted the word is not accepted (70_reset_and_hazards.md rule R280):
nothing else changes and there is no response (the word lost: log 6). -/
def Obligations.StepRunsDecodedCommand : Prop :=
  (∀ (s : State) (w : CmdWord) (rest : List HostInput), s.resetAsserted = false →
    s.pending = .command w :: rest →
    step s = exec (decodeCmd w) { s with pending := rest }) ∧
  (∀ (s : State) (i : Instr) (w : CmdWord) (rest : List HostInput), i.wf = true →
    encode i = .command w → s.resetAsserted = false → s.pending = .command w :: rest →
    step s = exec i { s with pending := rest }) ∧
  (∀ (s : State) (w : CmdWord) (rest : List HostInput), s.resetAsserted = true →
    s.pending = .command w :: rest → step s = .next { s with pending := rest })

/-- 70_reset_and_hazards.md rule R280: asserting the hardware reset input holds the core at its reset
values, releasing it leaves every register and port at its reset value, and a release of an input that
is not asserted changes nothing; 20_memory.md rule R71: with no input the core waits and nothing
changes. That the values are those of reset from the assertion on, that inputs not yet taken stay
pending, and that the streams start again, is the model's choice (logs 2, 3, 4, 5, 6). -/
def Obligations.ResetInputAndIdleWait : Prop :=
  (∀ (s : State) (rest : List HostInput), s.pending = .resetInput true :: rest →
    step s = .next { State.reset with pending := rest, resetAsserted := true }) ∧
  (∀ (s : State) (rest : List HostInput), s.resetAsserted = true →
    s.pending = .resetInput false :: rest →
    step s = .next { State.reset with pending := rest }) ∧
  (∀ (s : State) (rest : List HostInput), s.resetAsserted = false →
    s.pending = .resetInput false :: rest → step s = .next { s with pending := rest }) ∧
  (∀ s : State, s.pending = [] → step s = .next s)

/-- 70_reset_and_hazards.md rule R280: while the reset input is asserted no command is accepted,
whatever their number and words, and when it is released the state is the reset state, with no record
and no response; every step keeps it that a core whose reset is asserted is at its reset values. The
form of the inputs is the model's (logs 2, 6). -/
def Obligations.ResetHoldsTheCore : Prop :=
  (∀ (s : State) (ws : List CmdWord) (rest : List HostInput),
    s.pending = .resetInput true :: (ws.map .command ++ .resetInput false :: rest) →
    Sys2Proof.core.run (ws.length + 2) s = .next { State.reset with pending := rest }) ∧
  (∀ s s' : State, HeldInReset s → step s = .next s' → HeldInReset s') ∧
  HeldInReset State.reset

/-- 42_fsm.md rules R150, R170: the two refusals; an accepted `EDGE` performs, with the command's
operands, the one transition whose row matches the dispatch vector, which is the one the source's own
order selects; whatever it was, the edge tracker then holds this edge and the response is `OK`. -/
def Obligations.EdgeRunsMatchingRow : Prop :=
  (∀ (s : State) (t : Nat) (l : Level),
    s.dec.running = false ∨ (s.dec.prevValid = true ∧ t ≤ s.dec.prevTs) →
    exec (.edge t l) s = onlyAnswered s .errRefused) ∧
  (∀ (s : State) (t : Nat) (l : Level), s.dec.running = true →
    (s.dec.prevValid = true → s.dec.prevTs < t) →
    exec (.edge t l) s =
      exec (sourceOrderRow s.dec { t := t, lvl := l }).toInstr (withEdge s t l) ∧
    (∀ p ∈ rowTable, dispatchVector s.dec { t := t, lvl := l } &&& p.mask = p.matchBits →
      exec (.edge t l) s = exec p.row.toInstr (withEdge s t l)) ∧
    (∀ s' : State, exec (.edge t l) s = .next s' →
      s'.dec.prevValid = true ∧ s'.dec.prevTs = t ∧ s'.dec.prevLevel = l ∧
      s'.responses = s.responses ++ [.ok]))

/-- 10_state.md rule R44, the column of hardware reset. -/
def Obligations.ResetValues : Prop :=
  State.reset.dec.state = .idle ∧ State.reset.dec.prevValid = false ∧
  State.reset.dec.prevTs = 0 ∧ State.reset.dec.prevLevel = .low ∧ State.reset.dec.acc = 0 ∧
  State.reset.dec.bitCount = 0 ∧ State.reset.dec.buf = #v[0, 0, 0, 0, 0, 0] ∧
  State.reset.dec.byteCount = 0 ∧ State.reset.dec.bitStart = 0 ∧ State.reset.dec.byteStart = 0 ∧
  State.reset.dec.rateValid = false ∧ State.reset.dec.running = false ∧
  State.reset.dec.rate = 0 ∧
  State.reset.dec.th.idle = 0 ∧ State.reset.dec.th.leadLow = 0 ∧
  State.reset.dec.th.leadHigh = 0 ∧ State.reset.dec.th.sepLow = 0 ∧
  State.reset.dec.th.sepHigh = 0 ∧ State.reset.dec.th.bitLow = 0 ∧
  State.reset.dec.th.bit0High = 0 ∧ State.reset.dec.th.bit1High = 0 ∧
  State.reset.dec.polarity = .activeLow ∧ lifecycle State.reset.dec = .unconfigured ∧
  State.reset.out = []

/-! ### The calibrator -/

/-- 40_calibrator.md rule R112: `SET_RATE` in every mode. -/
def Obligations.SetRateRecomputesThresholds : Prop :=
  ∀ (s : State) (R : Nat),
    (R = 0 → exec (.setRate R) s = onlyAnswered s .errRefused) ∧
    (R ≠ 0 → exec (.setRate R) s = commandDone s
      { s.dec with
        rate := R, rateValid := true
        th := {
          idle := (R : Int) * 30000 / 1000000 - 1
          leadLow := (R : Int) * 4500 / 1000000 - 1
          leadHigh := (R : Int) * 4350 / 1000000 - 1
          sepLow := (R : Int) * 600 / 1000000 - 1
          sepHigh := (R : Int) * 5110 / 1000000 - 1
          bitLow := (R : Int) * 600 / 1000000 - 1
          bit0High := (R : Int) * 500 / 1000000 - 1
          bit1High := (R : Int) * 1600 / 1000000 - 1 } })

/-- 40_calibrator.md rule R114: every threshold is a non-decreasing function of the rate, and
doubling the rate gives twice the threshold plus 1 or 2. -/
def Obligations.ThresholdsMonotone : Prop :=
  ∀ us ∈ [Config.usIdle, Config.usLeadLow, Config.usLeadHigh, Config.usSepLow, Config.usSepHigh,
      Config.usBitLow, Config.usBit0High, Config.usBit1High],
    (∀ R1 R2 : Nat, R1 ≤ R2 → threshold R1 us ≤ threshold R2 us) ∧
    (∀ R : Nat, threshold (2 * R) us = 2 * threshold R us + 1 ∨
      threshold (2 * R) us = 2 * threshold R us + 2) ∧
    (calibrate 1000000).leadLow = 4499 ∧ (calibrate 2000000).leadLow = 2 * 4499 + 1

/-- 40_calibrator.md rule R115: the equalities and orderings of the thresholds at every rate. -/
def Obligations.ThresholdOrder : Prop :=
  (∀ R : Nat, (calibrate R).sepLow = (calibrate R).bitLow ∧
    (calibrate R).bit0High ≤ (calibrate R).bitLow ∧
    (calibrate R).bitLow ≤ (calibrate R).bit1High ∧
    (calibrate R).bit1High ≤ (calibrate R).leadHigh ∧
    (calibrate R).leadHigh ≤ (calibrate R).leadLow ∧
    (calibrate R).leadLow ≤ (calibrate R).sepHigh ∧
    (calibrate R).sepHigh ≤ (calibrate R).idle) ∧
  (calibrate 2000).sepLow = 0 ∧ (calibrate 2000).bitLow = 0 ∧ (calibrate 2000).bit0High = 0

/-- 40_calibrator.md rule R113: a threshold is -1 where the quotient is 0 and at least -1 always; the
least rate at which each is non-negative; all are exactly from 2000 samples per second; a threshold of
-1 matches no width of 1 or more, and with an idle threshold of -1 every edge in a non-idle state times
out. -/
def Obligations.ThresholdSigns : Prop :=
  (∀ R us : Nat, (R * us < 1000000 → threshold R us = -1) ∧ -1 ≤ threshold R us) ∧
  (∀ R : Nat,
    let th := calibrate R
    (0 ≤ th.idle ↔ 34 ≤ R) ∧ (0 ≤ th.sepHigh ↔ 196 ≤ R) ∧ (0 ≤ th.leadLow ↔ 223 ≤ R) ∧
    (0 ≤ th.leadHigh ↔ 230 ≤ R) ∧ (0 ≤ th.bit1High ↔ 625 ≤ R) ∧ (0 ≤ th.sepLow ↔ 1667 ≤ R) ∧
    (0 ≤ th.bitLow ↔ 1667 ≤ R) ∧ (0 ≤ th.bit0High ↔ 2000 ≤ R) ∧
    (0 ≤ th.idle ∧ 0 ≤ th.sepHigh ∧ 0 ≤ th.leadLow ∧ 0 ≤ th.leadHigh ∧ 0 ≤ th.bit1High ∧
      0 ≤ th.sepLow ∧ 0 ≤ th.bitLow ∧ 0 ≤ th.bit0High ↔ 2000 ≤ R)) ∧
  (∀ w : Nat, 1 ≤ w → near w (-1) = false) ∧
  (∀ (s : State) (t : Nat) (l : Level), Measured s.dec t → s.dec.state ≠ .idle →
    s.dec.th.idle = -1 →
    exec (.edge t l) s = edgeDone (withEdge s t l) (cleared s.dec)
      [overPulse (withEdge s t l) .warning 1])

/-- 40_calibrator.md rule R116: the thresholds at the rates of its table, in the order idle, lead_low,
lead_high, sep_low, sep_high, bit_low, bit0_high, bit1_high. -/
def Obligations.ThresholdsAtListedRates : Prop :=
  let row := fun R : Nat =>
    let th := calibrate R
    [th.idle, th.leadLow, th.leadHigh, th.sepLow, th.sepHigh, th.bitLow, th.bit0High, th.bit1High]
  row 1 = [-1, -1, -1, -1, -1, -1, -1, -1] ∧ row 34 = [0, -1, -1, -1, -1, -1, -1, -1] ∧
  row 1000 = [29, 3, 3, -1, 4, -1, -1, 0] ∧ row 1999 = [58, 7, 7, 0, 9, 0, -1, 2] ∧
  row 2000 = [59, 8, 7, 0, 9, 0, 0, 2] ∧ row 20000 = [599, 89, 86, 11, 101, 11, 9, 31] ∧
  row 44100 = [1322, 197, 190, 25, 224, 25, 21, 69] ∧
  row 100000 = [2999, 449, 434, 59, 510, 59, 49, 159] ∧
  row 500000 = [14999, 2249, 2174, 299, 2554, 299, 249, 799] ∧
  row 1000000 = [29999, 4499, 4349, 599, 5109, 599, 499, 1599] ∧
  row 2000000 = [59999, 8999, 8699, 1199, 10219, 1199, 999, 3199] ∧
  row 12000000 = [359999, 53999, 52199, 7199, 61319, 7199, 5999, 19199] ∧
  row 24000000 = [719999, 107999, 104399, 14399, 122639, 14399, 11999, 38399]

/-! ### The classifier -/

/-- 41_classifier.md rule R131: `near` is the tolerance band with both bounds inclusive, the integers
from `ceil(85 b / 100)` to `floor(115 b / 100)`. -/
def Obligations.NearIsInclusiveBand : Prop :=
  ∀ (w : Nat) (b : Int),
    (near w b = true ↔ 85 * b ≤ 100 * (w : Int) ∧ 100 * (w : Int) ≤ 115 * b) ∧
    (near w b = true ↔ -((-(85 * b)) / 100) ≤ (w : Int) ∧ (w : Int) ≤ 115 * b / 100)

/-- 41_classifier.md rule R137: the accepted widths at 1,000,000 samples per second, and the nominal
widths among them. -/
def Obligations.WindowsAtOneMegahertz : Prop :=
  (∀ w : Nat,
    let th := calibrate 1000000
    (pLl th w = true ↔ 3825 ≤ w ∧ w ≤ 5173) ∧ (pLh th w = true ↔ 3697 ≤ w ∧ w ≤ 5001) ∧
    (pBl th w = true ↔ 510 ≤ w ∧ w ≤ 688) ∧ (near w th.sepLow = true ↔ 510 ≤ w ∧ w ≤ 688) ∧
    (pB0 th w = true ↔ 425 ≤ w ∧ w ≤ 573) ∧ (pB1 th w = true ↔ 1360 ≤ w ∧ w ≤ 1838) ∧
    (pSep th w = true ↔ 4343 ≤ w) ∧ (pIdle th w = true ↔ 30000 ≤ w)) ∧
  pLl (calibrate 1000000) 4500 = true ∧ pLh (calibrate 1000000) 4350 = true ∧
  pBl (calibrate 1000000) 600 = true ∧ pB0 (calibrate 1000000) 500 = true ∧
  pB1 (calibrate 1000000) 1600 = true ∧ pSep (calibrate 1000000) 5110 = true

/-- 41_classifier.md rule R138 (b), (c), (d): at every rate no width of 1 or more lies in both bit
windows, no width over the idle threshold lies in any window, and the least rates at which each window
holds some width of 1 or more. -/
def Obligations.WindowsNeverConflict : Prop :=
  (∀ R w : Nat, 0 < R → 1 ≤ w →
    let th := calibrate R
    ¬ (pB0 th w = true ∧ pB1 th w = true) ∧
    (pIdle th w = true → pLl th w = false ∧ pLh th w = false ∧ pBl th w = false ∧
      pB0 th w = false ∧ pB1 th w = false)) ∧
  (∀ R : Nat, 0 < R →
    ((∃ w, 1 ≤ w ∧ pLl (calibrate R) w = true) ↔ 445 ≤ R) ∧
    ((∃ w, 1 ≤ w ∧ pLh (calibrate R) w = true) ↔ 460 ≤ R) ∧
    ((∃ w, 1 ≤ w ∧ pB1 (calibrate R) w = true) ↔ 1250 ≤ R) ∧
    ((∃ w, 1 ≤ w ∧ pBl (calibrate R) w = true) ↔ 3334 ≤ R) ∧
    ((∃ w, 1 ≤ w ∧ pB0 (calibrate R) w = true) ↔ 4000 ≤ R))

/-! ### Host commands -/

/-- 44_host_ops.md rule R221: `SET_POL` records the option in every mode and writes nothing else. -/
def Obligations.SetPolRecordsOption : Prop :=
  ∀ s : State,
    exec (.setPol .low) s = commandDone s { s.dec with polarity := .activeLow } ∧
    exec (.setPol .high) s = commandDone s { s.dec with polarity := .activeHigh }

/-- 44_host_ops.md rule R222 and 60_exceptions.md rule R241: `START`. -/
def Obligations.StartBeginsSession : Prop :=
  ∀ s : State,
    (s.dec.running = true → exec .start s = onlyAnswered s .errRefused) ∧
    (s.dec.running = false → s.dec.rateValid = false →
      exec .start s = onlyAnswered s .errMissingRate) ∧
    (s.dec.running = false → s.dec.rateValid = true →
      exec .start s = commandDone s
        { state := .idle, prevValid := false, prevTs := 0, prevLevel := .low, acc := 0
          bitCount := 0, buf := #v[0, 0, 0, 0, 0, 0], byteCount := 0, bitStart := 0, byteStart := 0
          rateValid := s.dec.rateValid, running := true, rate := s.dec.rate, th := s.dec.th
          polarity := s.dec.polarity })

/-- 44_host_ops.md rule R223: `END` clears the session and emits nothing. -/
def Obligations.EndClosesSession : Prop :=
  ∀ s : State,
    (s.dec.running = false → exec .endInput s = onlyAnswered s .errRefused) ∧
    (s.dec.running = true →
      exec .endInput s = commandDone s
        { state := .idle, prevValid := false, prevTs := 0, prevLevel := .low, acc := 0
          bitCount := 0, buf := #v[0, 0, 0, 0, 0, 0], byteCount := 0, bitStart := 0, byteStart := 0
          rateValid := s.dec.rateValid, running := false, rate := s.dec.rate, th := s.dec.th
          polarity := s.dec.polarity })

/-- 44_host_ops.md rule R224: the reserved opcodes are refused in every mode, with no effect. -/
def Obligations.ReservedOpcodesRefused : Prop :=
  ∀ (s : State), ∀ i ∈ [Instr.reserved000, .reserved110, .reserved111],
    exec i s = onlyAnswered s .errRefused

/-- 44_host_ops.md rule R220: the response of every command in every lifecycle mode and the mode
afterwards; a command not answered `OK` writes no register and emits nothing (60_exceptions.md rule
R249: the complete list of refusals). -/
def Obligations.AcceptanceByLifecycleMode : Prop :=
  ∀ (s : State) (i : Instr) (r : Response) (m : Lifecycle), Inv s →
    acceptance i s.dec = some (r, m) →
    ∃ s', exec i s = .next s' ∧ s'.responses = s.responses ++ [r] ∧ lifecycle s'.dec = m ∧
      (r ≠ .ok → exec i s = onlyAnswered s r)

/-! ### The transition rows -/

/-- 42_fsm.md rules R151, R153, R164: the rows that do nothing but the epilogue, each for every state,
and the edges that take them. -/
def Obligations.QuietRowsOnlyTrackTheEdge : Prop :=
  (∀ s : State, exec .tFirst s = edgeDone s s.dec [] ∧ exec .tIdleIgnore s = edgeDone s s.dec [] ∧
    exec .tDlSkip s = edgeDone s s.dec []) ∧
  (∀ (s : State) (t : Nat) (l : Level), s.dec.running = true → s.dec.prevValid = false →
    exec (.edge t l) s = edgeDone (withEdge s t l) s.dec [] ∧
    (Inv s → s.dec.state = .idle)) ∧
  (∀ (s : State) (t : Nat) (l : Level), Measured s.dec t → s.dec.state = .idle →
    ¬ InWindow (t - s.dec.prevTs) s.dec.th.leadLow →
    exec (.edge t l) s = edgeDone (withEdge s t l) s.dec []) ∧
  (∀ (s : State) (t : Nat) (l : Level), Measured s.dec t → s.dec.state = .dataLow →
    NotIdle s.dec t → ¬ InWindow (t - s.dec.prevTs) s.dec.th.bitLow →
    exec (.edge t l) s = edgeDone (withEdge s t l) s.dec [])

/-- 42_fsm.md rules R154, R156: a low pulse of leader-low width, from `IDLE` or from `LEADER_LOW`. -/
def Obligations.LeaderLowOpensBlock : Prop :=
  (∀ s : State,
    exec .tIdleLeader s =
      edgeDone s { s.dec with state := .leaderHigh } [overPulse s .leader 0] ∧
    exec .tLlOk s =
      edgeDone s { s.dec with state := .leaderHigh } [overPulse s .leader 0]) ∧
  (∀ (s : State) (t : Nat) (l : Level), Measured s.dec t →
    s.dec.state = .idle ∨ (s.dec.state = .leaderLow ∧ NotIdle s.dec t) →
    InWindow (t - s.dec.prevTs) s.dec.th.leadLow → Rise s.dec l →
    exec (.edge t l) s = edgeDone (withEdge s t l) { s.dec with state := .leaderHigh }
      [overPulse (withEdge s t l) .leader 0])

/-- 42_fsm.md rules R155, R158, R161, R167: the full reset without a warning, each row for every
state, and the edges that take it. -/
def Obligations.SilentResetRows : Prop :=
  (∀ (s : State), ∀ i ∈ [Instr.tIdlePol, .tLlPol, .tLhPol, .tDhFail],
    exec i s = edgeDone s (cleared s.dec) []) ∧
  (∀ (s : State) (t : Nat) (l : Level), Measured s.dec t →
    (s.dec.state = .idle ∧ InWindow (t - s.dec.prevTs) s.dec.th.leadLow ∧ ¬ Rise s.dec l) ∨
    (s.dec.state = .leaderLow ∧ NotIdle s.dec t ∧ ¬ Rise s.dec l) ∨
    (s.dec.state = .leaderHigh ∧ NotIdle s.dec t ∧ ¬ Fall s.dec l) ∨
    (s.dec.state = .dataHigh ∧ NotIdle s.dec t ∧
      ¬ InWindow (t - s.dec.prevTs) s.dec.th.bit0High ∧
      ¬ InWindow (t - s.dec.prevTs) s.dec.th.bit1High) →
    exec (.edge t l) s = edgeDone (withEdge s t l) (cleared s.dec) [])

/-- 42_fsm.md rule R152 and 60_exceptions.md rule R242: an over-long pulse in any state but `IDLE`,
before every other test: one warning over it, with cause 1, and the full reset. -/
def Obligations.IdleTimeoutWarnsAndResets : Prop :=
  (∀ (s : State), ∀ i ∈ [Instr.tTimeoutLl, .tTimeoutLh, .tTimeoutDl, .tTimeoutDh, .tTimeoutSep],
    exec i s = edgeDone s (cleared s.dec) [overPulse s .warning 1]) ∧
  (∀ (s : State) (t : Nat) (l : Level), Measured s.dec t → s.dec.state ≠ .idle →
    s.dec.th.idle < ((t - s.dec.prevTs : Nat) : Int) →
    exec (.edge t l) s = edgeDone (withEdge s t l) (cleared s.dec)
      [overPulse (withEdge s t l) .warning 1])

/-- 42_fsm.md rules R157, R160, R169 (60_exceptions.md rules R243, R244, R245): the three timing
violations, each with its cause, and the full reset. -/
def Obligations.TimingViolationsWarnAndReset : Prop :=
  (∀ s : State, exec .tLlBad s = edgeDone s (cleared s.dec) [overPulse s .warning 2] ∧
    exec .tLhBad s = edgeDone s (cleared s.dec) [overPulse s .warning 3] ∧
    exec .tSepBad s = edgeDone s (cleared s.dec) [overPulse s .warning 4]) ∧
  (∀ (s : State) (t : Nat) (l : Level), Measured s.dec t → NotIdle s.dec t →
    (s.dec.state = .leaderLow → Rise s.dec l →
      ¬ InWindow (t - s.dec.prevTs) s.dec.th.leadLow →
      exec (.edge t l) s = edgeDone (withEdge s t l) (cleared s.dec)
        [overPulse (withEdge s t l) .warning 2]) ∧
    (s.dec.state = .leaderHigh → Fall s.dec l →
      ¬ InWindow (t - s.dec.prevTs) s.dec.th.leadHigh →
      exec (.edge t l) s = edgeDone (withEdge s t l) (cleared s.dec)
        [overPulse (withEdge s t l) .warning 3]) ∧
    (s.dec.state = .sep → 100 * ((t - s.dec.prevTs : Nat) : Int) ≤ 85 * s.dec.th.sepHigh →
      exec (.edge t l) s = edgeDone (withEdge s t l) (cleared s.dec)
        [overPulse (withEdge s t l) .warning 4]))

/-- 42_fsm.md rule R159: the leader's high pulse; the block's data begins with empty buffers. In a
state of the invariant they are already empty in `LEADER_HIGH`. -/
def Obligations.LeaderHighBeginsData : Prop :=
  (∀ s : State, exec .tLhOk s =
    edgeDone s { s.dec with state := .dataLow, acc := 0, bitCount := 0,
                            buf := #v[0, 0, 0, 0, 0, 0], byteCount := 0 }
      [overPulse s .leader 1]) ∧
  (∀ (s : State) (t : Nat) (l : Level), Measured s.dec t → s.dec.state = .leaderHigh →
    NotIdle s.dec t → Fall s.dec l → InWindow (t - s.dec.prevTs) s.dec.th.leadHigh →
    exec (.edge t l) s =
      edgeDone (withEdge s t l)
        { s.dec with state := .dataLow, acc := 0, bitCount := 0, buf := #v[0, 0, 0, 0, 0, 0],
                     byteCount := 0 }
        [overPulse (withEdge s t l) .leader 1]) ∧
  (∀ s : State, Inv s → s.dec.state = .leaderHigh →
    s.dec.acc = 0 ∧ s.dec.bitCount = 0 ∧ s.dec.byteCount = 0 ∧
      ∀ i, i < 6 → bufByte s.dec i = some 0)

/-- 42_fsm.md rules R162, R163: a bit-low-shaped pulse in `DATA_LOW` is the separator's after the
sixth byte with no pending bit, and a bit's otherwise; the latches take the start of the pulse. -/
def Obligations.DataLowPulses : Prop :=
  (∀ s : State, exec .tDlSep s = edgeDone s { s.dec with state := .sep } [] ∧
    exec .tDlBit s =
      edgeDone s { s.dec with
        state := .dataHigh, bitStart := s.dec.prevTs
        byteStart := if s.dec.bitCount = 0 then s.dec.prevTs else s.dec.byteStart } []) ∧
  (∀ (s : State) (t : Nat) (l : Level), Measured s.dec t → s.dec.state = .dataLow →
    NotIdle s.dec t → InWindow (t - s.dec.prevTs) s.dec.th.bitLow →
    (s.dec.byteCount = 6 ∧ s.dec.bitCount = 0 →
      exec (.edge t l) s = edgeDone (withEdge s t l) { s.dec with state := .sep } []) ∧
    (¬ (s.dec.byteCount = 6 ∧ s.dec.bitCount = 0) →
      exec (.edge t l) s =
        edgeDone (withEdge s t l) { s.dec with
          state := .dataHigh, bitStart := s.dec.prevTs
          byteStart := if s.dec.bitCount = 0 then s.dec.prevTs else s.dec.byteStart } []))

/-- 42_fsm.md rules R165, R166 and 43_assembler.md rule R190: a decoded bit that is not the eighth is
emitted over its whole symbol and appended from the right. Above 7, where no run comes, `bit_count`
counts on (log 18). -/
def Obligations.DecodedBitIsAppended : Prop :=
  ∀ s : State, s.dec.bitCount ≠ 7 →
    (exec .tDhBit0 s =
      edgeDone s { s.dec with state := .dataLow, acc := s.dec.acc * 2,
                              bitCount := s.dec.bitCount + 1 }
        [{ kind := .bit, data := 0, start := s.dec.bitStart, stop := s.edge.t }]) ∧
    (exec .tDhBit1 s =
      edgeDone s { s.dec with state := .dataLow, acc := s.dec.acc * 2 + 1,
                              bitCount := s.dec.bitCount + 1 }
        [{ kind := .bit, data := 1, start := s.dec.bitStart, stop := s.edge.t }])

/-- 42_fsm.md rules R165, R166 with 43_assembler.md rules R190 to R193, R195 to R197 and R199: the
eighth bit closes the byte: the bit record, the byte record over the eight symbols, the field records
of its index, the byte stored, the accumulator cleared. -/
def Obligations.EighthBitClosesByte : Prop :=
  ∀ (s : State) (h : s.dec.byteCount < 6), s.dec.bitCount = 7 →
    (exec .tDhBit0 s =
      edgeDone s { s.dec with
          state := .dataLow, acc := 0, bitCount := 0, byteCount := s.dec.byteCount + 1
          buf := s.dec.buf.set s.dec.byteCount (s.dec.acc * 2) h }
        ([{ kind := .bit, data := 0, start := s.dec.bitStart, stop := s.edge.t },
          { kind := .byte, data := s.dec.acc * 2, start := s.dec.byteStart, stop := s.edge.t }] ++
          fieldRecords s.dec s.edge.t s.dec.byteCount (s.dec.acc * 2))) ∧
    (exec .tDhBit1 s =
      edgeDone s { s.dec with
          state := .dataLow, acc := 0, bitCount := 0, byteCount := s.dec.byteCount + 1
          buf := s.dec.buf.set s.dec.byteCount (s.dec.acc * 2 + 1) h }
        ([{ kind := .bit, data := 1, start := s.dec.bitStart, stop := s.edge.t },
          { kind := .byte, data := s.dec.acc * 2 + 1, start := s.dec.byteStart,
            stop := s.edge.t }] ++
          fieldRecords s.dec s.edge.t s.dec.byteCount (s.dec.acc * 2 + 1)))

/-- The model's own stop (log 9, `bufIndexOutOfRange`): an eighth bit with six bytes already in the
buffer, which no state of the invariant has. -/
def Obligations.SeventhByteFaults : Prop :=
  ∀ s : State, s.dec.bitCount = 7 → 6 ≤ s.dec.byteCount →
    exec .tDhBit0 s = .fault .bufIndexOutOfRange ∧ exec .tDhBit1 s = .fault .bufIndexOutOfRange

/-- 42_fsm.md rules R165, R166: which high pulses are a 0 and which a 1. -/
def Obligations.DataHighPulsesDiscriminate : Prop :=
  ∀ (s : State) (t : Nat) (l : Level), Measured s.dec t → s.dec.state = .dataHigh →
    NotIdle s.dec t →
    (InWindow (t - s.dec.prevTs) s.dec.th.bit0High →
      exec (.edge t l) s = exec .tDhBit0 (withEdge s t l)) ∧
    (¬ InWindow (t - s.dec.prevTs) s.dec.th.bit0High →
      InWindow (t - s.dec.prevTs) s.dec.th.bit1High →
      exec (.edge t l) s = exec .tDhBit1 (withEdge s t l))

/-- 42_fsm.md rule R168: the separator's long high pulse completes the block; `acc` and the start
latches are not written. -/
def Obligations.SeparatorCompletesBlock : Prop :=
  (∀ s : State, exec .tSepOk s =
    edgeDone s { s.dec with state := .leaderLow, buf := #v[0, 0, 0, 0, 0, 0], byteCount := 0,
                            bitCount := 0 }
      [{ kind := .separator, data := 0, start := (s.dec.prevTs : Int) - s.dec.th.bitLow
         stop := min (s.edge.t : Int) ((s.dec.prevTs : Int) + s.dec.th.sepHigh) }]) ∧
  (∀ (s : State) (t : Nat) (l : Level), Measured s.dec t → s.dec.state = .sep →
    NotIdle s.dec t → 85 * s.dec.th.sepHigh < 100 * ((t - s.dec.prevTs : Nat) : Int) →
    exec (.edge t l) s = exec .tSepOk (withEdge s t l))

/-! ### The assembler -/

/-- 20_memory.md rule R61: every byte of the buffer reads as before, but for the byte at `byte_count`
when the eighth bit closes it, which reads as that byte; and the buffer has six bytes. -/
def Obligations.BufferFrame : Prop :=
  (∀ (s s' : State) (b : Bool) (j : Nat),
    exec (if b then .tDhBit1 else .tDhBit0) s = .next s' →
    (s.dec.bitCount ≠ 7 ∨ j ≠ s.dec.byteCount → bufByte s'.dec j = bufByte s.dec j) ∧
    (s.dec.bitCount = 7 → j = s.dec.byteCount →
      bufByte s'.dec j = some (s.dec.acc * 2 + (if b then 1 else 0)))) ∧
  (∀ (s s' : State) (j : Nat), ∀ i ∈ [Instr.tFirst, .tIdleIgnore, .tIdleLeader, .tLlOk, .tDlSep,
      .tDlBit, .tDlSkip, .setPol .low, .setPol .high, .reserved000, .reserved110, .reserved111],
    exec i s = .next s' → bufByte s'.dec j = bufByte s.dec j) ∧
  (∀ (s s' : State) (R : Nat) (j : Nat), exec (.setRate R) s = .next s' →
    bufByte s'.dec j = bufByte s.dec j) ∧
  (∀ (d : DecoderState) (j : Nat), (bufByte d j).isSome = true ↔ j < 6)

/-- 20_memory.md rule R64: eight bits appended to an empty accumulator, first-received bit in bit 7. -/
def Obligations.BitsAssembleMsbFirst : Prop :=
  ∀ b0 b1 b2 b3 b4 b5 b6 b7 : Bool,
    ([b0, b1, b2, b3, b4, b5, b6, b7].foldl shiftIn 0).toNat =
      b0.toNat * 2 ^ 7 + b1.toNat * 2 ^ 6 + b2.toNat * 2 ^ 5 + b3.toNat * 2 ^ 4 +
      b4.toNat * 2 ^ 3 + b5.toNat * 2 ^ 2 + b6.toNat * 2 + b7.toNat

/-- 43_assembler.md rule R194: the popcount-weighted length is what its bits contribute, at every
width and every thresholds; and its values at 1,000,000 samples per second by popcount. -/
def Obligations.FieldLengthCountsItsBits : Prop :=
  (∀ (th : Thresholds) (n : Nat) (code : BitVec n),
    fieldLen th code = bitsLength th ((List.range n).map fun i => code.getLsbD i)) ∧
  (∀ c : BitVec 2, fieldLen (calibrate 1000000) c = 2396 + 1000 * (popcount c : Int)) ∧
  (∀ c : BitVec 3, fieldLen (calibrate 1000000) c = 3594 + 1000 * (popcount c : Int)) ∧
  (∀ c : BitVec 4, fieldLen (calibrate 1000000) c = 4792 + 1000 * (popcount c : Int))

/-- 43_assembler.md rule R198 (a), (b): the range of `gray_temp` and its two fixed points, whatever
the free entries are. -/
def Obligations.GrayTempContract : Prop :=
  (∀ nib : BitVec 4, 17 ≤ grayTemp nib ∧ grayTemp nib ≤ 31) ∧ grayTemp 0b0000 = 17 ∧
    grayTemp 0b1110 = 31

/-- 30_encoding.md rule R103: the labels the spec states, outside the core. -/
def Obligations.StatedLabels : Prop :=
  addrLabel 0xB2 = "Address: 0xB2" ∧ fanLabel 0b101 = "Auto" ∧ fanLabel 0b001 = "High" ∧
  fanLabel 0b011 = "Poweroff" ∧ modeLabel 0b10 = "Auto" ∧
  (∀ m : BitVec 2, commandLabel (modeData .fanOnly m) = some "Fan") ∧
  (∀ v : Byte, temperatureLabel v = toString v.toNat ++ "°C") ∧ temperatureLabel 26 = "26°C"

/-! ### The whole machine -/

/-- The state after reset satisfies the invariant (10_state.md rules R43, R44). -/
def Obligations.ResetSatisfiesInvariant : Prop := Inv State.reset

/-- 10_state.md rule R43 (a) to (h), with what they rest on, and the records the rules produce
(30_encoding.md rules R90, R96, R98): from every state that satisfies it, every step gives a state
that satisfies it. -/
def Obligations.EveryStepKeepsInvariant : Prop :=
  ∀ s s' : State, Inv s → step s = .next s' → Inv s'

/-- 60_exceptions.md rule R257: nothing halts the core, from every state of the invariant and for
every sequence of inputs. -/
def Obligations.NothingHaltsTheCore : Prop := ∀ s : State, Inv s → NeverStops s

/-- 30_encoding.md rule R87: every command produces exactly one response, with its code; a command
that answers anything but `OK` changes no state and emits nothing. -/
def Obligations.OneResponsePerCommand : Prop :=
  (∀ (s s' : State) (w : CmdWord) (rest : List HostInput), s.resetAsserted = false →
    s.pending = .command w :: rest → step s = .next s' →
    ∃ r, s'.responses = s.responses ++ [r] ∧ (r ≠ .ok → s'.dec = s.dec ∧ s'.out = s.out)) ∧
  responseCode .ok = 0b00 ∧ responseCode .errMissingRate = 0b01 ∧
  responseCode .errRefused = 0b10 ∧ (∀ r : Response, responseCode r ≠ 0b11)

/-- 20_memory.md rule R69 and 43_assembler.md rule R200: a command never withdraws a record already
emitted, and adds at most four. -/
def Obligations.CommandsAppendAtMostFour : Prop :=
  ∀ (s s' : State) (w : CmdWord) (rest : List HostInput), s.pending = .command w :: rest →
    step s = .next s' → ∃ new, s'.out = s.out ++ new ∧ new.length ≤ 4

/-- 60_exceptions.md rules R240, R253: a warning is emitted only by an edge from a state other than
`IDLE`; it is the step's only record, spans the offending pulse, and leaves the core in `IDLE` with
its block state clear. -/
def Obligations.WarningMeansFullReset : Prop :=
  ∀ (s s' : State) (i : Instr) (new : List Annotation) (a : Annotation),
    acceptance i s.dec ≠ none → exec i s = .next s' → s'.out = s.out ++ new → a ∈ new →
    a.kind = .warning →
    ∃ t l, i = .edge t l ∧ new = [a] ∧ a.start = s.dec.prevTs ∧ a.stop = t ∧
      s.dec.state ≠ .idle ∧ s'.dec.state = .idle ∧ BlockClear s'.dec ∧
      s'.dec.prevTs = t ∧ s'.dec.prevLevel = l

/-- 42_fsm.md rules R171, R172, R173 (a) and 10_state.md rule R27: an edge that ends a measured pulse
moves along the FSM's graph; `LEADER_LOW` is entered only from `SEP` with a separator record, `SEP`
only after the sixth byte with no pending bit, `DATA_HIGH` only with the bit's start latched. -/
def Obligations.EdgesFollowTheGraph : Prop :=
  ∀ (s s' : State) (t : Nat) (l : Level), Measured s.dec t → exec (.edge t l) s = .next s' →
    s'.dec.state ∈ graphNext s.dec.state ∧
    (s'.dec.state = .leaderLow →
      s.dec.state = .sep ∧ ∃ a, a.kind = .separator ∧ s'.out = s.out ++ [a]) ∧
    (s'.dec.state = .sep →
      s.dec.state = .dataLow ∧ s.dec.byteCount = 6 ∧ s.dec.bitCount = 0) ∧
    (s'.dec.state = .dataHigh → s.dec.state = .dataLow ∧ s'.dec.bitStart = s.dec.prevTs)

/-- 42_fsm.md rule R173 (e) and 70_reset_and_hazards.md rule R285: whatever the state, the edge that
ends an over-long pulse leaves the core in `IDLE` with its block state clear of bits and bytes, and
ready to measure the next pulse. -/
def Obligations.OverlongPulseHeals : Prop :=
  ∀ (s : State) (t : Nat) (l : Level), Inv s → Measured s.dec t →
    s.dec.th.idle < ((t - s.dec.prevTs : Nat) : Int) →
    ∃ s', exec (.edge t l) s = .next s' ∧ s'.dec.state = .idle ∧ s'.dec.acc = 0 ∧
      s'.dec.bitCount = 0 ∧ s'.dec.byteCount = 0 ∧ (∀ i, i < 6 → bufByte s'.dec i = some 0) ∧
      s'.dec.prevValid = true ∧ s'.dec.prevTs = t ∧ s'.dec.prevLevel = l ∧
      s'.dec.running = true ∧ s'.dec.th = s.dec.th

/-- 10_state.md rules R29, R39, R40: only `SET_RATE` with a positive rate writes the rate and the
thresholds, only `SET_POL` the polarity, only `START` and `END` the flag `running`. -/
def Obligations.ConfigurationWriters : Prop :=
  ∀ (s s' : State) (i : Instr), exec i s = .next s' →
    (s'.dec.th ≠ s.dec.th ∨ s'.dec.rate ≠ s.dec.rate ∨ s'.dec.rateValid ≠ s.dec.rateValid →
      ∃ R, 0 < R ∧ i = .setRate R) ∧
    (s'.dec.polarity ≠ s.dec.polarity → ∃ l, i = .setPol l) ∧
    (s'.dec.running ≠ s.dec.running → i = .start ∨ i = .endInput)

/-- 10_state.md rules R30, R34, R40 and 44_host_ops.md rule R221: `polarity`, `th_sep_low` and `rate`
are read by no rule: machines that differ in nothing else take the same step, with the same records
and responses, and still differ in nothing else. -/
def Obligations.DeadRegistersDoNotInterfere : Prop :=
  ∀ s1 s2 s1' : State, AgreeState s1 s2 → step s1 = .next s1' →
    ∃ s2', step s2 = .next s2' ∧ AgreeState s1' s2'

/-- 20_memory.md rules R64, R65 and 43_assembler.md rule R191: eight bit symbols whose pulses lie in
their windows, received in `DATA_LOW` at a byte boundary, are one byte: stored at `byte_count`,
recorded from the start of the first symbol to the end of the last, with no warning, at every rate. -/
def Obligations.EightSymbolsAreOneByte : Prop :=
  ∀ (s : State) (bs : List BitSymbol), Inv s → s.dec.running = true → s.dec.state = .dataLow →
    s.dec.bitCount = 0 → s.dec.byteCount < 6 → bs.length = 8 →
    (∀ b ∈ bs, b.fits s.dec.th) →
    ∃ s', execAll (symbolEdges s.dec.prevTs bs) s = .next s' ∧
      s'.dec.state = .dataLow ∧ s'.dec.bitCount = 0 ∧ s'.dec.acc = 0 ∧
      s'.dec.byteCount = s.dec.byteCount + 1 ∧
      s'.dec.prevTs = s.dec.prevTs + duration bs ∧
      bufByte s'.dec s.dec.byteCount = some (BitVec.ofNat 8 (msbValue (bs.map (·.value)))) ∧
      (∀ j, j ≠ s.dec.byteCount → bufByte s'.dec j = bufByte s.dec j) ∧
      ofKind .byte s'.out = ofKind .byte s.out ++
        [{ kind := .byte, data := BitVec.ofNat 8 (msbValue (bs.map (·.value)))
           start := s.dec.prevTs, stop := ((s.dec.prevTs + duration bs : Nat) : Int) }] ∧
      ofKind .warning s'.out = ofKind .warning s.out

/-- 30_encoding.md rule R81 with 43_assembler.md rules R191, R193 and R200: a leader, six bytes of
symbols and a separator, every pulse in its window, received after an edge at level low in `IDLE` or
`LEADER_LOW`, are one block, at every rate: two leader records, the bit records in order, the six byte
records with the six values in order, one address record with the first, two command records, at most
one temperature record, one separator record, no warning, and the core awaits the next leader. -/
def Obligations.WellFormedBlockDecodes : Prop :=
  ∀ (s : State) (ll lh sl sh : Nat) (bytes : List (List BitSymbol)), Inv s →
    s.dec.running = true → s.dec.prevValid = true → s.dec.prevLevel = .low →
    s.dec.state = .idle ∨ s.dec.state = .leaderLow →
    0 < ll → 0 < lh → 0 < sl → 0 < sh →
    InWindow ll s.dec.th.leadLow → InWindow lh s.dec.th.leadHigh → InWindow sl s.dec.th.bitLow →
    85 * s.dec.th.sepHigh < 100 * (sh : Int) → (sh : Int) ≤ s.dec.th.idle →
    bytes.length = 6 → (∀ bs ∈ bytes, bs.length = 8 ∧ ∀ b ∈ bs, b.fits s.dec.th) →
    let t0 := s.dec.prevTs + ll + lh
    let t1 := t0 + duration bytes.flatten
    let values := bytes.map fun bs => (BitVec.ofNat 8 (msbValue (bs.map (·.value))) : Byte)
    ∃ s', execAll
        ([.edge (s.dec.prevTs + ll) .high, .edge t0 .low] ++ symbolEdges t0 bytes.flatten ++
          [.edge (t1 + sl) .high, .edge (t1 + sl + sh) .low]) s = .next s' ∧
      s'.dec.state = .leaderLow ∧ s'.dec.byteCount = 0 ∧ s'.dec.bitCount = 0 ∧
      (ofKind .byte s'.out).map (·.data) = (ofKind .byte s.out).map (·.data) ++ values ∧
      (ofKind .address s'.out).map (·.data) = (ofKind .address s.out).map (·.data) ++
        values.take 1 ∧
      (ofKind .leader s'.out).length = (ofKind .leader s.out).length + 2 ∧
      (ofKind .bit s'.out).map (·.data) = (ofKind .bit s.out).map (·.data) ++
        bytes.flatten.map (fun b => if b.value then 1 else 0) ∧
      (ofKind .command s'.out).length = (ofKind .command s.out).length + 2 ∧
      (ofKind .temperature s'.out).length ≤ (ofKind .temperature s.out).length + 1 ∧
      (ofKind .separator s'.out).length = (ofKind .separator s.out).length + 1 ∧
      ofKind .warning s'.out = ofKind .warning s.out
end

