-- ==== Sys2Proof/Laws/Decode.lean ====
section
/-! SUPPORT. Laws/Decode: the fields of a command word read back what was put in them, and the codes
of levels and states are one to one. -/

namespace Sys2Proof.Laws

section Fields
variable (op : BitVec 3) (lvl : BitVec 1) (arg : BitVec 64)

@[simp] theorem cmdOp_cmdWord : cmdOp (cmdWord op lvl arg) = op := by
  ext i hi
  simp only [cmdOp, cmdWord, BitVec.getElem_extractLsb', BitVec.getLsbD_append]
  have h1 : ¬ (65 + i < 64) := by omega
  have h2 : ¬ (65 + i - 64 < 1) := by omega
  have h3 : 65 + i - 64 - 1 = i := by omega
  simp [h1, h2, h3, hi]

@[simp] theorem cmdLvl_cmdWord : cmdLvl (cmdWord op lvl arg) = lvl := by
  ext i hi
  have hi0 : i = 0 := by omega
  subst hi0
  simp only [cmdLvl, cmdWord, BitVec.getElem_extractLsb', BitVec.getLsbD_append]
  simp

@[simp] theorem cmdArg_cmdWord : cmdArg (cmdWord op lvl arg) = arg := by
  ext i hi
  simp only [cmdArg, cmdWord, BitVec.getElem_extractLsb', BitVec.getLsbD_append]
  simp [hi]

end Fields

@[simp] theorem ofBit_toBit (l : Level) : Level.ofBit l.toBit = l := by cases l <;> rfl

@[simp] theorem toBit_ofBit (b : BitVec 1) : (Level.ofBit b).toBit = b := by
  revert b
  decide

@[simp] theorem ofCode_code (f : FsmState) : FsmState.ofCode f.code = some f := by cases f <;> rfl

theorem code_ofCode (c : BitVec 3) (f : FsmState) (h : FsmState.ofCode c = some f) :
    f.code = c := by
  revert h f c
  decide +revert

/-- A row is decoded from its own match word (30_encoding.md rule R94). -/
theorem decodeRow_match (p : RowPattern) (h : p ∈ rowTable) : decodeRow p.matchBits = some p.row := by
  revert h p
  decide

end Sys2Proof.Laws
end

