-- ==== Sys2Proof/Laws/State.lean ====
section
/-! SUPPORT. Laws/State: what each update of the state does to each field, true by unfolding the
update, so that no later proof unfolds one. -/

namespace Sys2Proof.Laws

open Sys2Proof.Machine Sys2Proof.Safety

/-! ### Ports -/

section Ports
variable (k : AnnKind) (a b : Int) (v : Byte) (r : Response) (s : State)

@[simp] theorem emit_dec : (emit k a b v s).dec = s.dec := rfl
@[simp] theorem emit_edge : (emit k a b v s).edge = s.edge := rfl
@[simp] theorem emit_resetAsserted : (emit k a b v s).resetAsserted = s.resetAsserted := rfl
@[simp] theorem emit_pending : (emit k a b v s).pending = s.pending := rfl
@[simp] theorem emit_out :
    (emit k a b v s).out = s.out ++ [{ kind := k, data := v, start := a, stop := b }] := rfl
@[simp] theorem emit_responses : (emit k a b v s).responses = s.responses := rfl

@[simp] theorem respond_dec : (respond r s).dec = s.dec := rfl
@[simp] theorem respond_edge : (respond r s).edge = s.edge := rfl
@[simp] theorem respond_resetAsserted : (respond r s).resetAsserted = s.resetAsserted := rfl
@[simp] theorem respond_pending : (respond r s).pending = s.pending := rfl
@[simp] theorem respond_out : (respond r s).out = s.out := rfl
@[simp] theorem respond_responses : (respond r s).responses = s.responses ++ [r] := rfl

end Ports

/-! ### Resets -/

section Resets
variable (d : DecoderState) (s : State) (f : FsmState)

@[simp] theorem clearBlock_state : (clearBlock d).state = .idle := rfl
@[simp] theorem clearBlock_prevValid : (clearBlock d).prevValid = d.prevValid := rfl
@[simp] theorem clearBlock_prevTs : (clearBlock d).prevTs = d.prevTs := rfl
@[simp] theorem clearBlock_prevLevel : (clearBlock d).prevLevel = d.prevLevel := rfl
@[simp] theorem clearBlock_acc : (clearBlock d).acc = 0 := rfl
@[simp] theorem clearBlock_bitCount : (clearBlock d).bitCount = 0 := rfl
@[simp] theorem clearBlock_buf : (clearBlock d).buf = emptyBuf := rfl
@[simp] theorem clearBlock_byteCount : (clearBlock d).byteCount = 0 := rfl
@[simp] theorem clearBlock_bitStart : (clearBlock d).bitStart = 0 := rfl
@[simp] theorem clearBlock_byteStart : (clearBlock d).byteStart = 0 := rfl
@[simp] theorem clearBlock_rateValid : (clearBlock d).rateValid = d.rateValid := rfl
@[simp] theorem clearBlock_running : (clearBlock d).running = d.running := rfl
@[simp] theorem clearBlock_rate : (clearBlock d).rate = d.rate := rfl
@[simp] theorem clearBlock_th : (clearBlock d).th = d.th := rfl
@[simp] theorem clearBlock_polarity : (clearBlock d).polarity = d.polarity := rfl

@[simp] theorem clearSession_state : (clearSession d).state = .idle := rfl
@[simp] theorem clearSession_prevValid : (clearSession d).prevValid = false := rfl
@[simp] theorem clearSession_prevTs : (clearSession d).prevTs = 0 := rfl
@[simp] theorem clearSession_prevLevel : (clearSession d).prevLevel = .low := rfl
@[simp] theorem clearSession_acc : (clearSession d).acc = 0 := rfl
@[simp] theorem clearSession_bitCount : (clearSession d).bitCount = 0 := rfl
@[simp] theorem clearSession_buf : (clearSession d).buf = emptyBuf := rfl
@[simp] theorem clearSession_byteCount : (clearSession d).byteCount = 0 := rfl
@[simp] theorem clearSession_bitStart : (clearSession d).bitStart = 0 := rfl
@[simp] theorem clearSession_byteStart : (clearSession d).byteStart = 0 := rfl
@[simp] theorem clearSession_rateValid : (clearSession d).rateValid = d.rateValid := rfl
@[simp] theorem clearSession_running : (clearSession d).running = d.running := rfl
@[simp] theorem clearSession_rate : (clearSession d).rate = d.rate := rfl
@[simp] theorem clearSession_th : (clearSession d).th = d.th := rfl
@[simp] theorem clearSession_polarity : (clearSession d).polarity = d.polarity := rfl

@[simp] theorem fullReset_dec : (fullReset s).dec = clearBlock s.dec := rfl
@[simp] theorem fullReset_edge : (fullReset s).edge = s.edge := rfl
@[simp] theorem fullReset_resetAsserted : (fullReset s).resetAsserted = s.resetAsserted := rfl
@[simp] theorem fullReset_pending : (fullReset s).pending = s.pending := rfl
@[simp] theorem fullReset_out : (fullReset s).out = s.out := rfl
@[simp] theorem fullReset_responses : (fullReset s).responses = s.responses := rfl

@[simp] theorem setState_dec : (setState f s).dec = { s.dec with state := f } := rfl
@[simp] theorem setState_edge : (setState f s).edge = s.edge := rfl
@[simp] theorem setState_resetAsserted : (setState f s).resetAsserted = s.resetAsserted := rfl
@[simp] theorem setState_pending : (setState f s).pending = s.pending := rfl
@[simp] theorem setState_out : (setState f s).out = s.out := rfl
@[simp] theorem setState_responses : (setState f s).responses = s.responses := rfl

end Resets

/-! ### The hardware reset input -/

section HardwareReset
variable (s : State) (w : CmdWord)

@[simp] theorem hardwareReset_dec : (hardwareReset s).dec = DecoderState.reset := rfl
@[simp] theorem hardwareReset_edge : (hardwareReset s).edge = State.reset.edge := rfl
@[simp] theorem hardwareReset_resetAsserted : (hardwareReset s).resetAsserted = false := rfl
@[simp] theorem hardwareReset_pending : (hardwareReset s).pending = s.pending := rfl
@[simp] theorem hardwareReset_out : (hardwareReset s).out = [] := rfl
@[simp] theorem hardwareReset_responses : (hardwareReset s).responses = [] := rfl

@[simp] theorem holdInReset_dec : (holdInReset s).dec = DecoderState.reset := rfl
@[simp] theorem holdInReset_edge : (holdInReset s).edge = State.reset.edge := rfl
@[simp] theorem holdInReset_resetAsserted : (holdInReset s).resetAsserted = true := rfl
@[simp] theorem holdInReset_pending : (holdInReset s).pending = s.pending := rfl
@[simp] theorem holdInReset_out : (holdInReset s).out = [] := rfl
@[simp] theorem holdInReset_responses : (holdInReset s).responses = [] := rfl

@[simp] theorem driveReset_assert : driveReset true s = holdInReset s := rfl
@[simp] theorem driveReset_release (h : s.resetAsserted = true) :
    driveReset false s = hardwareReset s := by simp [driveReset, h]
@[simp] theorem driveReset_released (h : s.resetAsserted = false) : driveReset false s = s := by
  simp [driveReset, h]

@[simp] theorem issueFirst_dec : (issueFirst w s).dec = s.dec := rfl
@[simp] theorem issueFirst_edge : (issueFirst w s).edge = s.edge := rfl
@[simp] theorem issueFirst_resetAsserted : (issueFirst w s).resetAsserted = false := rfl
@[simp] theorem issueFirst_pending : (issueFirst w s).pending = .command w :: s.pending := rfl
@[simp] theorem issueFirst_out : (issueFirst w s).out = s.out := rfl
@[simp] theorem issueFirst_responses : (issueFirst w s).responses = s.responses := rfl

end HardwareReset

/-! ### The edge tracker -/

section Tracker
variable (s : State) (t : Nat) (l : Level)

@[simp] theorem epilogue_dec :
    (epilogue s).dec =
      { s.dec with prevValid := true, prevTs := s.edge.t, prevLevel := s.edge.lvl } := rfl
@[simp] theorem epilogue_edge : (epilogue s).edge = s.edge := rfl
@[simp] theorem epilogue_resetAsserted : (epilogue s).resetAsserted = s.resetAsserted := rfl
@[simp] theorem epilogue_pending : (epilogue s).pending = s.pending := rfl
@[simp] theorem epilogue_out : (epilogue s).out = s.out := rfl
@[simp] theorem epilogue_responses : (epilogue s).responses = s.responses := rfl

@[simp] theorem withEdge_dec : (withEdge s t l).dec = s.dec := rfl
@[simp] theorem withEdge_edge : (withEdge s t l).edge = { t := t, lvl := l } := rfl
@[simp] theorem withEdge_resetAsserted : (withEdge s t l).resetAsserted = s.resetAsserted := rfl
@[simp] theorem withEdge_pending : (withEdge s t l).pending = s.pending := rfl
@[simp] theorem withEdge_out : (withEdge s t l).out = s.out := rfl
@[simp] theorem withEdge_responses : (withEdge s t l).responses = s.responses := rfl

end Tracker

/-! ### The block buffer: read after write, and all other bytes alone (20_memory.md rule R61) -/

section Buffer
variable (d : DecoderState)

theorem bufByte_isSome (j : Nat) : (bufByte d j).isSome = true ↔ j < 6 := by
  unfold bufByte
  by_cases h : j < 6 <;> simp [h]

@[simp] theorem bufByte_bufWrite_same (i : Nat) (v : Byte) (h : i < 6) :
    bufByte (bufWrite d i v h) i = some v := by
  simp [bufByte, bufWrite, h]

theorem bufByte_bufWrite_other (i j : Nat) (v : Byte) (h : i < 6) (hj : j ≠ i) :
    bufByte (bufWrite d i v h) j = bufByte d j := by
  simp [bufByte, bufWrite, Ne.symm hj]

theorem bufByte_empty (j : Nat) (hj : j < 6) (hd : d.buf = emptyBuf) : bufByte d j = some 0 := by
  simp [bufByte, hd, emptyBuf, hj]

end Buffer

end Sys2Proof.Laws
end

