-- ==== Sys2Proof/Laws/Ops.lean ====
section
/-! SUPPORT. Laws/Ops: for each shared operation, once, everything it can do. -/

namespace Sys2Proof.Laws

open Sys2Proof.Machine Sys2Proof.Safety

/-! ### The classifier -/

theorem near_iff (w : Nat) (b : Int) : near w b = true ↔ InWindow w b := by
  rw [near, Bool.and_eq_true, decide_eq_true_eq, decide_eq_true_eq]
  exact Iff.rfl

theorem pIdle_iff (th : Thresholds) (w : Nat) : pIdle th w = true ↔ th.idle < (w : Int) := by
  simp [pIdle]

theorem pSep_iff (th : Thresholds) (w : Nat) :
    pSep th w = true ↔ 85 * th.sepHigh < 100 * (w : Int) := by
  rw [pSep, decide_eq_true_eq]
  exact Iff.rfl

theorem pRise_iff (d : DecoderState) (e : Edge) : pRise d e = true ↔ Rise d e.lvl := by
  simp [pRise, Rise]

theorem pFall_iff (d : DecoderState) (e : Edge) : pFall d e = true ↔ Fall d e.lvl := by
  simp [pFall, Fall]

theorem pFull_iff (d : DecoderState) : pFull d = true ↔ d.byteCount = 6 ∧ d.bitCount = 0 := by
  simp [pFull, Config.blockBytes]

/-! ### Ends of an edge step -/

theorem finishEdge_eq (s : State) : finishEdge s = edgeDone s s.dec [] := by
  simp [finishEdge, edgeDone, respond, epilogue]

theorem warnAndReset_eq (c : WarningCause) (s : State) :
    warnAndReset c s =
      edgeDone s (cleared s.dec) [overPulse s .warning (warningCauseCode c)] := rfl

theorem silentReset_eq (s : State) : silentReset s = edgeDone s (cleared s.dec) [] := by
  simp only [silentReset, finishEdge_eq]
  rfl

@[simp] theorem edgeDone_inj (s s' : State) (d : DecoderState) (as : List Annotation) :
    edgeDone s d as = .next s' ↔
      s' =
        { dec := { d with prevValid := true, prevTs := s.edge.t, prevLevel := s.edge.lvl }
          edge := s.edge, resetAsserted := s.resetAsserted, pending := s.pending, out := s.out ++ as
          responses := s.responses ++ [.ok] } := by
  simp [edgeDone, eq_comm]

@[simp] theorem refuse_eq (s : State) : refuse s = onlyAnswered s .errRefused := rfl

@[simp] theorem raiseMissingSampleRate_eq (s : State) :
    raiseMissingSampleRate s = onlyAnswered s .errMissingRate := rfl

@[simp] theorem onlyAnswered_inj (s s' : State) (r : Response) :
    onlyAnswered s r = .next s' ↔ s' = { s with responses := s.responses ++ [r] } := by
  simp [onlyAnswered, eq_comm]

@[simp] theorem andThen_next (s : State) (k : State → Result) : andThen (.next s) k = k s := rfl
@[simp] theorem andThen_fault (f : Fault) (k : State → Result) :
    andThen (.fault f) k = .fault f := rfl
@[simp] theorem andThen_refused (f : Refusal) (k : State → Result) :
    andThen (.refused f) k = .refused f := rfl

/-! ### The assembler -/

/-- The accumulator with one more bit, as a number: twice itself plus the bit. -/
def appended (acc : Byte) (b : Bool) : Byte := acc * 2 + (if b then 1 else 0)

/-- The shift of 30_encoding.md rule R83 is twice the accumulator plus the bit. -/
theorem shiftIn_eq (acc : Byte) (b : Bool) : shiftIn acc b = appended acc b := by
  revert acc b
  decide

theorem fanData_eq (v : Byte) : fanData (fanCode v) = v >>> 5 := by
  revert v
  decide

theorem modeData_fanOnly (v : Byte) :
    modeData .fanOnly (modeCode v) = 0x80 + ((v >>> 2) &&& 3) := by
  revert v
  decide

theorem modeData_mode (v : Byte) : modeData .mode (modeCode v) = 0x40 + ((v >>> 2) &&& 3) := by
  revert v
  decide

theorem tempNibble_eq (v : Byte) : tempNibble v = (v >>> 4).setWidth 4 := by
  revert v
  decide

theorem popcount_two (c : BitVec 2) : popcount c = (c.getLsbD 1).toNat + (c.getLsbD 0).toNat := by
  revert c
  decide

theorem popcount_three (c : BitVec 3) :
    popcount c = (c.getLsbD 2).toNat + (c.getLsbD 1).toNat + (c.getLsbD 0).toNat := by
  revert c
  decide

theorem popcount_four (c : BitVec 4) :
    popcount c = (c.getLsbD 3).toNat + (c.getLsbD 2).toNat + (c.getLsbD 1).toNat +
      (c.getLsbD 0).toNat := by
  revert c
  decide

theorem fieldLen_fan (th : Thresholds) (v : Byte) :
    fieldLen th (fanCode v) = bitsLength th [v.getLsbD 7, v.getLsbD 6, v.getLsbD 5] := by
  simp only [fieldLen, popcount_three, bitsLength, fanCode, BitVec.getLsbD_extractLsb']
  cases v.getLsbD 7 <;> cases v.getLsbD 6 <;> cases v.getLsbD 5 <;> simp <;> ring

theorem fieldLen_temp (th : Thresholds) (v : Byte) :
    fieldLen th (tempNibble v) =
      bitsLength th [v.getLsbD 7, v.getLsbD 6, v.getLsbD 5, v.getLsbD 4] := by
  simp only [fieldLen, popcount_four, bitsLength, tempNibble, BitVec.getLsbD_extractLsb']
  cases v.getLsbD 7 <;> cases v.getLsbD 6 <;> cases v.getLsbD 5 <;> cases v.getLsbD 4 <;> simp <;>
    ring

theorem fieldLen_mode (th : Thresholds) (v : Byte) :
    fieldLen th (modeCode v) = bitsLength th [v.getLsbD 3, v.getLsbD 2] := by
  simp only [fieldLen, popcount_two, bitsLength, modeCode, BitVec.getLsbD_extractLsb']
  cases v.getLsbD 3 <;> cases v.getLsbD 2 <;> simp <;> ring

/-- `extract_fields` only emits the records of its index. -/
theorem extractFields_eq (i : Nat) (v : Byte) (s : State) :
    extractFields i v s = { s with out := s.out ++ fieldRecords s.dec s.edge.t i v } := by
  unfold extractFields fieldRecords
  split_ifs
  · rfl
  · simp [fieldFan, emit, fanData_eq, fieldLen_fan]
  · by_cases ht : grayTemp ((v >>> 4).setWidth 4) = 31
    all_goals
      simp [fieldTemp, fieldMode, tempEnd, emit, fieldLen_temp, fieldLen_mode, ← tempNibble_eq,
        Config.fanOnlyTemp] at ht ⊢
      simp [ht, modeData_fanOnly, modeData_mode]
  · simp

/-- `finalize_byte` with a byte of the buffer left: the one next state. -/
theorem finalizeByte_eq (s : State) (h : s.dec.byteCount < 6) :
    finalizeByte s = .next
      { s with
        dec := { s.dec with
          buf := s.dec.buf.set s.dec.byteCount s.dec.acc h, byteCount := s.dec.byteCount + 1
          acc := 0, bitCount := 0 }
        out := s.out ++
          ({ kind := .byte, data := s.dec.acc, start := s.dec.byteStart, stop := s.edge.t } ::
            fieldRecords s.dec s.edge.t s.dec.byteCount s.dec.acc) } := by
  simp [finalizeByte, h, extractFields_eq, emit, bufWrite, fieldRecords]

/-- `finalize_byte` with none left: the model's fault (log 9). -/
theorem finalizeByte_fault (s : State) (h : 6 ≤ s.dec.byteCount) :
    finalizeByte s = .fault .bufIndexOutOfRange := by
  simp [finalizeByte, Nat.not_lt.mpr h]

/-- A decoded bit that is not the eighth. -/
theorem decodeBit_open (b : Bool) (s : State) (h : s.dec.bitCount ≠ 7) :
    decodeBit b s =
      edgeDone s
        { s.dec with
          state := .dataLow, acc := appended s.dec.acc b, bitCount := s.dec.bitCount + 1 }
        [{ kind := .bit, data := bitData b, start := s.dec.bitStart, stop := s.edge.t }] := by
  simp [decodeBit, appendBit, shiftIn_eq, finishEdge_eq, edgeDone, Config.byteBits, h]

/-- The eighth bit, with a byte of the buffer left. -/
theorem decodeBit_close (b : Bool) (s : State) (h7 : s.dec.bitCount = 7)
    (h : s.dec.byteCount < 6) :
    decodeBit b s =
      edgeDone s
        { s.dec with
          state := .dataLow, acc := 0, bitCount := 0, byteCount := s.dec.byteCount + 1
          buf := s.dec.buf.set s.dec.byteCount (appended s.dec.acc b) h }
        ([{ kind := .bit, data := bitData b, start := s.dec.bitStart, stop := s.edge.t },
          { kind := .byte, data := appended s.dec.acc b, start := s.dec.byteStart, stop := s.edge.t }] ++
          fieldRecords s.dec s.edge.t s.dec.byteCount (appended s.dec.acc b)) := by
  simp [decodeBit, appendBit, shiftIn_eq, finalizeByte_eq, finishEdge_eq, edgeDone,
    Config.byteBits, h7, h, fieldRecords]

/-- The eighth bit, with none left. -/
theorem decodeBit_fault (b : Bool) (s : State) (h7 : s.dec.bitCount = 7)
    (h : 6 ≤ s.dec.byteCount) : decodeBit b s = .fault .bufIndexOutOfRange := by
  simp [decodeBit, appendBit, finalizeByte_fault, Config.byteBits, h7, h]

/-- What a decoded bit can do: the three cases above are all. -/
theorem decodeBit_cases (b : Bool) (s s' : State) (h : decodeBit b s = .next s') :
    s.dec.bitCount ≠ 7 ∨ (s.dec.bitCount = 7 ∧ s.dec.byteCount < 6) := by
  by_cases h7 : s.dec.bitCount = 7
  · by_cases hb : s.dec.byteCount < 6
    · exact .inr ⟨h7, hb⟩
    · rw [decodeBit_fault b s h7 (by omega)] at h
      cases h
  · exact .inl h7

/-! ### The edge command -/

/-- What an `EDGE` can do when it answers a next state: it is refused with no effect, or it is
accepted and runs the row its dispatch vector selects. -/
theorem execEdge_cases (t : Nat) (l : Level) (s s' : State) (h : execEdge t l s = .next s') :
    (edgeAccepted s.dec { t := t, lvl := l } = false ∧
      s' = { s with responses := s.responses ++ [.errRefused] }) ∨
    (edgeAccepted s.dec { t := t, lvl := l } = true ∧
      ∃ r, selectRow s.dec { t := t, lvl := l } = some r ∧ runRow r (withEdge s t l) = .next s') := by
  unfold execEdge at h
  cases ha : edgeAccepted s.dec { t := t, lvl := l } with
  | false => simp [ha] at h; exact .inl ⟨rfl, h⟩
  | true =>
    simp only [ha, if_true] at h
    split at h
    · rename_i r hr
      exact .inr ⟨rfl, r, hr, h⟩
    · cases h

theorem execEdge_accepted (t : Nat) (l : Level) (s : State) (r : Row)
    (ha : edgeAccepted s.dec { t := t, lvl := l } = true)
    (hr : selectRow s.dec { t := t, lvl := l } = some r) :
    execEdge t l s = runRow r (withEdge s t l) := by
  simp [execEdge, ha, hr, withEdge]

theorem edgeAccepted_of_measured (d : DecoderState) (t : Nat) (l : Level) (h : Measured d t) :
    edgeAccepted d { t := t, lvl := l } = true := by
  simp [edgeAccepted, h.running, h.prevValid, h.later]

/-- A row as an instruction runs as it does inside an `EDGE`. -/
theorem exec_toInstr (r : Row) (s : State) : exec r.toInstr s = runRow r s := by cases r <;> rfl

end Sys2Proof.Laws
end

