-- ==== Sys2Proof/Laws/Rows.lean ====
section
/-! SUPPORT. Laws/Rows: everything a transition row can do, said once: what it leaves the core as (but
for the edge tracker, which the epilogue writes in every row) and what it emits. -/

namespace Sys2Proof.Laws

open Sys2Proof.Machine Sys2Proof.Safety

/-- The effect of a decoded bit (42_fsm.md rules R165, R166; 43_assembler.md rules R190 to R192). -/
def BitEffect (b : Bool) (s : State) (d : DecoderState) (as : List Annotation) : Prop :=
  (s.dec.bitCount ≠ 7 ∧
    d = { s.dec with
      state := .dataLow, acc := appended s.dec.acc b, bitCount := s.dec.bitCount + 1 } ∧
    as = [{ kind := .bit, data := bitData b, start := s.dec.bitStart, stop := s.edge.t }]) ∨
  (∃ h : s.dec.byteCount < 6, s.dec.bitCount = 7 ∧
    d = { s.dec with
      state := .dataLow, acc := 0, bitCount := 0, byteCount := s.dec.byteCount + 1
      buf := s.dec.buf.set s.dec.byteCount (appended s.dec.acc b) h } ∧
    as =
      [{ kind := .bit, data := bitData b, start := s.dec.bitStart, stop := s.edge.t },
        { kind := .byte, data := appended s.dec.acc b, start := s.dec.byteStart, stop := s.edge.t }] ++
      fieldRecords s.dec s.edge.t s.dec.byteCount (appended s.dec.acc b))

/-- The effect of a row (42_fsm.md rules R151 to R169). -/
def RowEffect (r : Row) (s : State) (d : DecoderState) (as : List Annotation) : Prop :=
  match r with
  | .tFirst | .tIdleIgnore | .tDlSkip => d = s.dec ∧ as = []
  | .tIdleLeader | .tLlOk =>
    d = { s.dec with state := .leaderHigh } ∧ as = [overPulse s .leader 0]
  | .tIdlePol | .tLlPol | .tLhPol | .tDhFail => d = cleared s.dec ∧ as = []
  | .tTimeoutLl | .tTimeoutLh | .tTimeoutDl | .tTimeoutDh | .tTimeoutSep =>
    d = cleared s.dec ∧ as = [overPulse s .warning 1]
  | .tLlBad => d = cleared s.dec ∧ as = [overPulse s .warning 2]
  | .tLhBad => d = cleared s.dec ∧ as = [overPulse s .warning 3]
  | .tSepBad => d = cleared s.dec ∧ as = [overPulse s .warning 4]
  | .tLhOk =>
    d = { s.dec with state := .dataLow, acc := 0, bitCount := 0, buf := emptyBuf, byteCount := 0 } ∧
      as = [overPulse s .leader 1]
  | .tDlSep => d = { s.dec with state := .sep } ∧ as = []
  | .tDlBit =>
    d = { s.dec with
      state := .dataHigh, bitStart := s.dec.prevTs
      byteStart := if s.dec.bitCount = 0 then s.dec.prevTs else s.dec.byteStart } ∧ as = []
  | .tDhBit0 => BitEffect false s d as
  | .tDhBit1 => BitEffect true s d as
  | .tSepOk =>
    d = { s.dec with state := .leaderLow, buf := emptyBuf, byteCount := 0, bitCount := 0 } ∧
      as =
        [{ kind := .separator, data := 0, start := (s.dec.prevTs : Int) - s.dec.th.bitLow
           stop := min (s.edge.t : Int) ((s.dec.prevTs : Int) + s.dec.th.sepHigh) }]

/-- A decoded bit that answers a next state has its effect. -/
theorem decodeBit_effect (b : Bool) (s s' : State) (h : decodeBit b s = .next s') :
    ∃ d as, edgeDone s d as = .next s' ∧ BitEffect b s d as := by
  rcases decodeBit_cases b s s' h with h7 | ⟨h7, hb⟩
  · rw [decodeBit_open b s h7] at h
    exact ⟨_, _, h, .inl ⟨h7, rfl, rfl⟩⟩
  · rw [decodeBit_close b s h7 hb] at h
    exact ⟨_, _, h, .inr ⟨hb, h7, rfl, rfl⟩⟩

/-- A row that answers a next state has its effect, and ends the edge step. -/
theorem runRow_effect (r : Row) (s s' : State) (h : runRow r s = .next s') :
    ∃ d as, edgeDone s d as = .next s' ∧ RowEffect r s d as := by
  cases r with
  | tDhBit0 => exact decodeBit_effect false s s' h
  | tDhBit1 => exact decodeBit_effect true s s' h
  | tIdlePol | tLlPol | tLhPol | tDhFail => exact ⟨_, _, (silentReset_eq s).symm.trans h, rfl, rfl⟩
  | tTimeoutLl | tTimeoutLh | tTimeoutDl | tTimeoutDh | tTimeoutSep | tLlBad | tLhBad | tSepBad =>
    exact ⟨_, _, h, rfl, rfl⟩
  | tFirst | tIdleIgnore | tDlSkip => exact ⟨_, _, (finishEdge_eq s).symm.trans h, rfl, rfl⟩
  | tIdleLeader | tLlOk | tLhOk | tDlSep | tDlBit | tSepOk =>
    refine ⟨_, _, Eq.trans ?_ h, rfl, rfl⟩
    simp [runRow, execTIdleLeader, execTLlOk, execTLhOk, execTDlSep, execTDlBit, execTSepOk,
      finishEdge_eq, edgeDone, emitLeader, overPulse, leaderData]

/-- A row answers a next state, but for a decoded eighth bit with no byte of the buffer left. -/
theorem runRow_completes (r : Row) (s : State) (h : s.dec.bitCount = 7 → s.dec.byteCount < 6) :
    ∃ s', runRow r s = .next s' := by
  have hb : ∀ b, ∃ s', decodeBit b s = .next s' := by
    intro b
    by_cases h7 : s.dec.bitCount = 7
    · exact ⟨_, decodeBit_close b s h7 (h h7)⟩
    · exact ⟨_, decodeBit_open b s h7⟩
  cases r with
  | tDhBit0 => exact hb false
  | tDhBit1 => exact hb true
  | _ => exact ⟨_, rfl⟩

end Sys2Proof.Laws
end

