-- ==== Sys2Proof/Laws/Exec.lean ====
section
/-! SUPPORT. Laws/Exec: everything an instruction can do when it answers a next state, said once, and
what a step can do. -/

namespace Sys2Proof.Laws

open Sys2Proof.Machine Sys2Proof.Safety

/-- The effect on the core of a host command other than `EDGE` that is answered `OK`
(40_calibrator.md rule R112; 44_host_ops.md rules R221, R222, R223). -/
def CommandEffect (i : Instr) (d d' : DecoderState) : Prop :=
  (∃ R, 0 < R ∧ i = .setRate R ∧ d' = { d with rate := R, rateValid := true, th := calibrate R }) ∨
  (∃ l, i = .setPol l ∧ d' = { d with polarity := Polarity.ofLevel l }) ∨
  (i = .start ∧ d.running = false ∧ d.rateValid = true ∧
    d' = { clearSession d with running := true }) ∨
  (i = .endInput ∧ d.running = true ∧ d' = { clearSession d with running := false })

/-- Everything an instruction can do when it answers a next state: answer without effect, do what
its command says, perform the row an accepted `EDGE` selects, or perform the row it is. -/
theorem exec_effect (i : Instr) (s s' : State) (h : exec i s = .next s') :
    (∃ r, r ≠ .ok ∧ onlyAnswered s r = .next s') ∨
    (∃ d, CommandEffect i s.dec d ∧ commandDone s d = .next s') ∨
    (∃ t l r d as, i = .edge t l ∧ edgeAccepted s.dec { t := t, lvl := l } = true ∧
      selectRow s.dec { t := t, lvl := l } = some r ∧ RowEffect r (withEdge s t l) d as ∧
      edgeDone (withEdge s t l) d as = .next s') ∨
    (∃ r d as, i = Row.toInstr r ∧ RowEffect r s d as ∧ edgeDone s d as = .next s') := by
  have row : ∀ r, i = Row.toInstr r →
      ∃ r d as, i = Row.toInstr r ∧ RowEffect r s d as ∧ edgeDone s d as = .next s' := by
    intro r hr
    rw [hr, exec_toInstr] at h
    obtain ⟨d, as, hd, he⟩ := runRow_effect r s s' h
    exact ⟨r, d, as, hr, he, hd⟩
  cases i with
  | setRate R =>
    by_cases hR : R = 0
    · simp only [exec, execSetRate, hR, if_true, refuse_eq] at h
      exact .inl ⟨_, by simp, h⟩
    · simp only [exec, execSetRate, hR, if_false] at h
      exact .inr (.inl ⟨_, .inl ⟨R, by omega, rfl, rfl⟩, h⟩)
  | setPol l => exact .inr (.inl ⟨_, .inr (.inl ⟨l, rfl, rfl⟩), h⟩)
  | start =>
    simp only [exec, execStart] at h
    split_ifs at h with h1 h2
    · exact .inl ⟨_, by simp, h⟩
    · exact .inr (.inl ⟨_, .inr (.inr (.inl ⟨rfl, by simpa using h1, h2, rfl⟩)), h⟩)
    · exact .inl ⟨.errMissingRate, by simp, h⟩
  | endInput =>
    simp only [exec, execEndInput] at h
    split_ifs at h with h1
    · exact .inr (.inl ⟨_, .inr (.inr (.inr ⟨rfl, h1, rfl⟩)), h⟩)
    · exact .inl ⟨_, by simp, h⟩
  | edge t l =>
    rcases execEdge_cases t l s s' h with ⟨-, rfl⟩ | ⟨ha, r, hr, h1⟩
    · exact .inl ⟨.errRefused, by simp, rfl⟩
    · obtain ⟨d, as, hd, he⟩ := runRow_effect r _ s' h1
      exact .inr (.inr (.inl ⟨t, l, r, d, as, rfl, ha, hr, he, hd⟩))
  | reserved000 | reserved110 | reserved111 => exact .inl ⟨.errRefused, by simp, h⟩
  | tFirst => exact .inr (.inr (.inr (row .tFirst rfl)))
  | tIdleIgnore => exact .inr (.inr (.inr (row .tIdleIgnore rfl)))
  | tIdleLeader => exact .inr (.inr (.inr (row .tIdleLeader rfl)))
  | tIdlePol => exact .inr (.inr (.inr (row .tIdlePol rfl)))
  | tTimeoutLl => exact .inr (.inr (.inr (row .tTimeoutLl rfl)))
  | tTimeoutLh => exact .inr (.inr (.inr (row .tTimeoutLh rfl)))
  | tTimeoutDl => exact .inr (.inr (.inr (row .tTimeoutDl rfl)))
  | tTimeoutDh => exact .inr (.inr (.inr (row .tTimeoutDh rfl)))
  | tTimeoutSep => exact .inr (.inr (.inr (row .tTimeoutSep rfl)))
  | tLlOk => exact .inr (.inr (.inr (row .tLlOk rfl)))
  | tLlBad => exact .inr (.inr (.inr (row .tLlBad rfl)))
  | tLlPol => exact .inr (.inr (.inr (row .tLlPol rfl)))
  | tLhOk => exact .inr (.inr (.inr (row .tLhOk rfl)))
  | tLhBad => exact .inr (.inr (.inr (row .tLhBad rfl)))
  | tLhPol => exact .inr (.inr (.inr (row .tLhPol rfl)))
  | tDlSep => exact .inr (.inr (.inr (row .tDlSep rfl)))
  | tDlBit => exact .inr (.inr (.inr (row .tDlBit rfl)))
  | tDlSkip => exact .inr (.inr (.inr (row .tDlSkip rfl)))
  | tDhBit0 => exact .inr (.inr (.inr (row .tDhBit0 rfl)))
  | tDhBit1 => exact .inr (.inr (.inr (row .tDhBit1 rfl)))
  | tDhFail => exact .inr (.inr (.inr (row .tDhFail rfl)))
  | tSepOk => exact .inr (.inr (.inr (row .tSepOk rfl)))
  | tSepBad => exact .inr (.inr (.inr (row .tSepBad rfl)))

/-- With nothing pending a step waits. -/
theorem step_idle (s : State) (h : s.pending = []) : step s = .next s := by
  simp [step, takeInput, h, idleWait]

/-- A step that takes a change of the reset input. -/
theorem step_resetInput (s : State) (a : Bool) (rest : List HostInput)
    (h : s.pending = .resetInput a :: rest) :
    step s = .next (driveReset a { s with pending := rest }) := by
  simp [step, takeInput, h]

/-- A step that takes a command word executes it, unless the reset input is asserted. -/
theorem step_command (s : State) (w : CmdWord) (rest : List HostInput)
    (h : s.pending = .command w :: rest) :
    step s = if s.resetAsserted then .next { s with pending := rest }
      else exec (decodeCmd w) { s with pending := rest } := by
  cases hr : s.resetAsserted <;> simp [step, takeInput, h, acceptsCommand, commandNotAccepted, hr]

/-- Everything a step can do when it answers a next state: wait, take a change of the reset input,
pass over a command word while reset is asserted, or run the command word it takes. -/
theorem step_effect (s s' : State) (h : step s = .next s') :
    (s.pending = [] ∧ s' = s) ∨
    (∃ a rest, s.pending = .resetInput a :: rest ∧
      s' = driveReset a { s with pending := rest }) ∨
    (∃ w rest, s.pending = .command w :: rest ∧ s.resetAsserted = true ∧
      s' = { s with pending := rest }) ∨
    (∃ w rest, s.pending = .command w :: rest ∧ s.resetAsserted = false ∧
      exec (decodeCmd w) { s with pending := rest } = .next s') := by
  cases hp : s.pending with
  | nil => rw [step_idle s hp] at h; cases h; exact .inl ⟨rfl, rfl⟩
  | cons x rest =>
    cases x with
    | resetInput a =>
      rw [step_resetInput s a rest hp] at h; cases h
      exact .inr (.inl ⟨a, rest, rfl, rfl⟩)
    | command w =>
      rw [step_command s w rest hp] at h
      cases hr : s.resetAsserted with
      | true => simp only [hr, if_true] at h; cases h; exact .inr (.inr (.inl ⟨w, rest, rfl, rfl, rfl⟩))
      | false =>
        simp only [hr, Bool.false_eq_true, if_false] at h
        exact .inr (.inr (.inr ⟨w, rest, rfl, rfl, h⟩))

/-- A run goes on from the next state of its first step. -/
theorem run_of_step (k : Nat) (s s' : State) (h : step s = .next s') :
    Sys2Proof.core.run (k + 1) s = Sys2Proof.core.run k s' := by
  have hs : Sys2Proof.core.step s = .next s' := h
  exact (Host.Core.run.eq_2 Sys2Proof.core s k).trans (by rw [hs])

/-- A command word decodes to a host command, never to a transition row. -/
theorem decodeCmd_command (w : CmdWord) (r : Row) : decodeCmd w ≠ r.toInstr := by
  unfold decodeCmd
  split_ifs <;> cases r <;> simp [Row.toInstr]

end Sys2Proof.Laws
end

