-- ==== Sys2Proof/Laws/PerInstr.lean ====
section
/-! SUPPORT. Laws/PerInstr: per instruction, its encoding carries the fixed bits that its row of
spec/opcode_table.json gives (copied here from that table, not from the decoder). -/

namespace Sys2Proof.Laws

/-- The fixed bits of a row of spec/opcode_table.json: a command word's `match` under the mask
`0xE0000000000000000`, or a transition row's `match` and `mask`. -/
inductive FixedBits where
  | command (matchBits : CmdWord)
  | dispatch (matchBits mask : DispatchWord)

/-- The mask of every command row of spec/opcode_table.json. -/
def opMask : CmdWord := 0xE0000000000000000

/-- spec/opcode_table.json, row by row. -/
def fixedBits : Instr → FixedBits
  | .setRate _ => .command 0x20000000000000000
  | .setPol _ => .command 0x40000000000000000
  | .start => .command 0x60000000000000000
  | .edge _ _ => .command 0x80000000000000000
  | .endInput => .command 0xA0000000000000000
  | .reserved000 => .command 0x00000000000000000
  | .reserved110 => .command 0xC0000000000000000
  | .reserved111 => .command 0xE0000000000000000
  | .tFirst => .dispatch 0x0000 0x2000
  | .tIdleIgnore => .dispatch 0x2000 0x3C40
  | .tIdleLeader => .dispatch 0x2140 0x3D40
  | .tIdlePol => .dispatch 0x2040 0x3D40
  | .tTimeoutLl => .dispatch 0x2600 0x3E00
  | .tTimeoutLh => .dispatch 0x2A00 0x3E00
  | .tTimeoutDl => .dispatch 0x2E00 0x3E00
  | .tTimeoutDh => .dispatch 0x3200 0x3E00
  | .tTimeoutSep => .dispatch 0x3600 0x3E00
  | .tLlOk => .dispatch 0x2540 0x3F40
  | .tLlBad => .dispatch 0x2500 0x3F40
  | .tLlPol => .dispatch 0x2400 0x3F00
  | .tLhOk => .dispatch 0x28A0 0x3EA0
  | .tLhBad => .dispatch 0x2880 0x3EA0
  | .tLhPol => .dispatch 0x2800 0x3E80
  | .tDlSep => .dispatch 0x2C11 0x3E11
  | .tDlBit => .dispatch 0x2C10 0x3E11
  | .tDlSkip => .dispatch 0x2C00 0x3E10
  | .tDhBit0 => .dispatch 0x3008 0x3E08
  | .tDhBit1 => .dispatch 0x3004 0x3E0C
  | .tDhFail => .dispatch 0x3000 0x3E0C
  | .tSepOk => .dispatch 0x3402 0x3E02
  | .tSepBad => .dispatch 0x3400 0x3E02

/-- The mask keeps the opcode of a command word and nothing else (30_encoding.md rule R85). -/
theorem cmdWord_and_opMask (op : BitVec 3) (lvl : BitVec 1) (arg : BitVec 64) :
    cmdWord op lvl arg &&& opMask = cmdWord op 0 0 := by
  have h : opMask = cmdWord 0b111 0 0 := by decide
  have h3 : op &&& 0b111 = op := by
    revert op
    decide
  rw [h, cmdWord, cmdWord, cmdWord, BitVec.and_append, BitVec.and_append, h3]
  simp

namespace TableRow

/-- The encoding of the instruction has the fixed bits of its row. -/
def Statement (i : Instr) : Prop :=
  match fixedBits i, encode i with
  | .command m, .command w => w &&& opMask = m
  | .dispatch m k, .dispatch v => v &&& k = m
  | _, _ => False

theorem setRate (rate : Nat) : Statement (.setRate rate) :=
  cmdWord_and_opMask _ _ _
theorem setPol (lvl : Level) : Statement (.setPol lvl) :=
  cmdWord_and_opMask _ _ _
theorem start : Statement .start := rfl
theorem edge (t : Nat) (lvl : Level) : Statement (.edge t lvl) :=
  cmdWord_and_opMask _ _ _
theorem endInput : Statement .endInput := rfl
theorem reserved000 : Statement .reserved000 := rfl
theorem reserved110 : Statement .reserved110 := rfl
theorem reserved111 : Statement .reserved111 := rfl
theorem tFirst : Statement .tFirst := rfl
theorem tIdleIgnore : Statement .tIdleIgnore := rfl
theorem tIdleLeader : Statement .tIdleLeader := rfl
theorem tIdlePol : Statement .tIdlePol := rfl
theorem tTimeoutLl : Statement .tTimeoutLl := rfl
theorem tTimeoutLh : Statement .tTimeoutLh := rfl
theorem tTimeoutDl : Statement .tTimeoutDl := rfl
theorem tTimeoutDh : Statement .tTimeoutDh := rfl
theorem tTimeoutSep : Statement .tTimeoutSep := rfl
theorem tLlOk : Statement .tLlOk := rfl
theorem tLlBad : Statement .tLlBad := rfl
theorem tLlPol : Statement .tLlPol := rfl
theorem tLhOk : Statement .tLhOk := rfl
theorem tLhBad : Statement .tLhBad := rfl
theorem tLhPol : Statement .tLhPol := rfl
theorem tDlSep : Statement .tDlSep := rfl
theorem tDlBit : Statement .tDlBit := rfl
theorem tDlSkip : Statement .tDlSkip := rfl
theorem tDhBit0 : Statement .tDhBit0 := rfl
theorem tDhBit1 : Statement .tDhBit1 := rfl
theorem tDhFail : Statement .tDhFail := rfl
theorem tSepOk : Statement .tSepOk := rfl
theorem tSepBad : Statement .tSepBad := rfl

end TableRow

end Sys2Proof.Laws
end

