-- ==== Sys2Proof/Machine/Text.lean ====
section
/-! DEFINITION. Text: the letters of the spec's textual notation (30_encoding.md rules R101, R102),
read into the lines of Trace. Outside the core: no meaning reads it. What the rules do not give a form
for is not a line (log 20). -/

namespace Sys2Proof.Machine

/-- Text after `;` is a comment (30_encoding.md rule R101). -/
def dropComment (cs : List Char) : List Char := cs.takeWhile (· != ';')

/-- The words of a line, separated by blanks. -/
def tokens (cs : List Char) : List (List Char) :=
  let split := cs.foldr (init := (([] : List Char), ([] : List (List Char)))) fun c acc =>
    if c = ' ' || c = '\t' then
      (if acc.1 = [] then acc else ([], acc.1 :: acc.2))
    else (c :: acc.1, acc.2)
  if split.1 = [] then split.2 else split.1 :: split.2

/-- The value of a digit in the base 10 or 16. -/
def digitValue (base : Nat) (c : Char) : Option Nat :=
  let n := c.toNat
  let v :=
    if 48 ≤ n ∧ n ≤ 57 then n - 48
    else if 65 ≤ n ∧ n ≤ 70 then n - 55
    else if 97 ≤ n ∧ n ≤ 102 then n - 87
    else base
  if v < base then some v else none

/-- Digits, most significant first. -/
def digitsValue (base : Nat) (acc : Nat) : List Char → Option Nat
  | [] => some acc
  | c :: cs =>
    match digitValue base c with
    | none => none
    | some v => digitsValue base (base * acc + v) cs

/-- A number: "decimal unless prefixed `0x`" (30_encoding.md rule R101). -/
def parseNumber : List Char → Option Nat
  | [] => none
  | '0' :: 'x' :: [] => none
  | '0' :: 'x' :: cs => digitsValue 16 0 cs
  | cs => digitsValue 10 0 cs

/-- A level: 0 or 1 (00_scope.md rule R9). -/
def parseLevel (cs : List Char) : Option Level :=
  match parseNumber cs with
  | some 0 => some .low
  | some 1 => some .high
  | _ => none

/-- One line from its words (30_encoding.md rules R101, R102). -/
def parseTokens (ws : List (List Char)) : Option PseudoLine :=
  match ws with
  | [k] =>
    if k = ['s', 't', 'a', 'r', 't'] then some (.line .start)
    else if k = ['e', 'n', 'd'] then some (.line .endInput)
    else if k = ['l', 'e', 'a', 'd', 'e', 'r'] then some .leader
    else if k = ['b', 'i', 't', '0'] then some .bit0
    else if k = ['b', 'i', 't', '1'] then some .bit1
    else if k = ['s', 'e', 'p'] then some .sep
    else none
  | [k, a] =>
    if k = ['r', 'a', 't', 'e'] then (parseNumber a).map fun r => .line (.rate r)
    else if k = ['p', 'o', 'l'] then
      (if a = ['l', 'o', 'w'] then some (.line (.pol .low))
       else if a = ['h', 'i', 'g', 'h'] then some (.line (.pol .high))
       else none)
    else if k = ['p', 'u', 'l', 's', 'e'] then (parseNumber a).map .pulse
    else if k = ['b', 'y', 't', 'e'] then
      (parseNumber a).bind fun v => if v < 256 then some (.byte (BitVec.ofNat 8 v)) else none
    else none
  | [k, a, b] =>
    if k = ['e', 'd', 'g', 'e'] then
      (parseNumber a).bind fun t => (parseLevel b).map fun l => .line (.edge t l)
    else none
  | _ => none

/-- One line of text: `some none` for a line that holds no command (blank, or a comment alone). -/
def parseLine (cs : List Char) : Option (Option PseudoLine) :=
  let ws := tokens (dropComment cs)
  if ws = [] then some none else (parseTokens ws).map some

/-- A text, one command per line (30_encoding.md rule R101); `none` where a line is none of the
notation. -/
def parseText : List (List Char) → Option (List PseudoLine)
  | [] => some []
  | l :: ls =>
    match parseLine l, parseText ls with
    | some (some p), some ps => some (p :: ps)
    | some none, some ps => some ps
    | _, _ => none

end Sys2Proof.Machine
end

