-- ==== Sys2Proof/Tests/Slice0.lean ====
section
/-! SUPPORT. Tests: small checks of the model against words and values that spec/ writes out
(95_test_vectors.md unless a comment says otherwise), and, for each obligation with hypotheses, a
concrete state and operands that meet them all. -/

namespace Sys2Proof.Tests

open Sys2Proof.Machine Sys2Proof.Safety

/-! ### Well-formedness: an ill-formed term for the one check -/

theorem test_setRate_too_wide : (Instr.setRate (2 ^ 64)).wf = false := by decide
theorem test_edge_too_wide : (Instr.edge (2 ^ 64) .low).wf = false := by decide
theorem test_edge_greatest : (Instr.edge (2 ^ 64 - 1) .high).wf = true := by decide

/-! ### Decoding: words of section 2.1 and vectors of section 2.4 -/

theorem test_decode_setRate :
    decode (.command 0x20000000000004E20) = .ok (.setRate 20000) ∧
    decode (.command 0x20000000000000000) = .ok (.setRate 0) := by decide
theorem test_decode_setPol :
    decode (.command 0x40000000000000000) = .ok (.setPol .low) ∧
    decode (.command 0x50000000000000000) = .ok (.setPol .high) := by decide
theorem test_decode_start :
    decode (.command 0x60000000000000000) = .ok .start ∧
    decode (.command 0x70000000000000000) = .ok .start ∧
    decode (.command 0x60000000000000007) = .ok .start := by decide
theorem test_decode_edge :
    decode (.command 0x800000000000003E8) = .ok (.edge 1000 .low) ∧
    decode (.command 0x9FFFFFFFFFFFFFFFF) = .ok (.edge 18446744073709551615 .high) := by decide
theorem test_decode_end : decode (.command 0xA0000000000000000) = .ok .endInput := by decide
theorem test_decode_reserved :
    decode (.command 0x00000000000000000) = .ok .reserved000 ∧
    decode (.command 0xD0000000000000005) = .ok .reserved110 ∧
    decode (.command 0xE0000000000000000) = .ok .reserved111 := by decide
theorem test_decode_idle_rows :
    decode (.dispatch 0b00000000000000) = .ok .tFirst ∧
    decode (.dispatch 0b10001100000010) = .ok .tIdleIgnore ∧
    decode (.dispatch 0b10000101100010) = .ok .tIdleLeader ∧
    decode (.dispatch 0b10000001100010) = .ok .tIdlePol := by decide
theorem test_decode_timeout_rows :
    decode (.dispatch 0b10011100000010) = .ok .tTimeoutLl ∧
    decode (.dispatch 0b10101010000010) = .ok .tTimeoutLh ∧
    decode (.dispatch 0b10111100000010) = .ok .tTimeoutDl ∧
    decode (.dispatch 0b11001010000010) = .ok .tTimeoutDh ∧
    decode (.dispatch 0b11011010000011) = .ok .tTimeoutSep := by decide
theorem test_decode_leader_rows :
    decode (.dispatch 0b10010101100010) = .ok .tLlOk ∧
    decode (.dispatch 0b10010100000000) = .ok .tLlBad ∧
    decode (.dispatch 0b10010001100010) = .ok .tLlPol ∧
    decode (.dispatch 0b10100011100010) = .ok .tLhOk ∧
    decode (.dispatch 0b10100010000000) = .ok .tLhBad ∧
    decode (.dispatch 0b10100001100010) = .ok .tLhPol := by decide
theorem test_decode_data_rows :
    decode (.dispatch 0b10110100010001) = .ok .tDlSep ∧
    decode (.dispatch 0b10110100010000) = .ok .tDlBit ∧
    decode (.dispatch 0b10110100000001) = .ok .tDlSkip ∧
    decode (.dispatch 0b11000010001000) = .ok .tDhBit0 ∧
    decode (.dispatch 0b11000010000100) = .ok .tDhBit1 ∧
    decode (.dispatch 0b11000010000000) = .ok .tDhFail := by decide
theorem test_decode_separator_rows :
    decode (.dispatch 0b11010011100011) = .ok .tSepOk ∧
    decode (.dispatch 0b11010011100001) = .ok .tSepBad := by decide
/-- 30_encoding.md rules R92, R95: no state has the codes `0b110` and `0b111`. -/
theorem test_decode_unassigned :
    decode (.dispatch 0b11100000000000) = .error .unassignedStateCode ∧
    decode (.dispatch 0b11110000000000) = .error .unassignedStateCode := by decide
/-- The words of spec/opcode_table.json in whole bytes, and words too long for their port. -/
theorem test_table_words :
    decodeTableWord 72 0x9000000000000157C = some (.edge 5500 .high) ∧
    decodeTableWord 16 0x3402 = some .tSepOk ∧ decodeTableWord 16 0x4000 = none ∧
    decodeTableWord 72 0x100000000000000000 = none := by decide

/-! ### Pre-states A0 to A7 of section 2.4 (rate 1,000,000; thresholds of rule R112's example) -/

/-- The thresholds 29999, 4499, 4349, 599, 5109, 599, 499, 1599. -/
def th1M : Thresholds :=
  { idle := 29999, leadLow := 4499, leadHigh := 4349, sepLow := 599, sepHigh := 5109
    bitLow := 599, bit0High := 499, bit1High := 1599 }

def configured : DecoderState :=
  { DecoderState.reset with rate := 1000000, rateValid := true, th := th1M }
def preA0 : DecoderState := { configured with running := true }
def preA1 : DecoderState := { preA0 with prevValid := true }
def preA2 : DecoderState := { preA1 with state := .leaderHigh, prevTs := 4500, prevLevel := .high }
def preA3 : DecoderState := { preA1 with state := .dataLow, prevTs := 8850 }
def preA4 : DecoderState :=
  { preA1 with
    state := .dataHigh, prevTs := 9450, prevLevel := .high, bitStart := 8850, byteStart := 8850 }
def preA5 : DecoderState :=
  { preA1 with
    state := .dataLow, byteCount := 6, buf := #v[0xB2, 0x4D, 0x1F, 0xE0, 0xE4, 0x1B]
    prevTs := 88050, bitStart := 85850, byteStart := 74850 }
def preA6 : DecoderState := { preA5 with state := .sep, prevTs := 88650, prevLevel := .high }
def preA7 : DecoderState :=
  { preA6 with
    state := .leaderLow, prevTs := 93760, prevLevel := .low, byteCount := 0
    buf := #v[0, 0, 0, 0, 0, 0] }

/-- A machine whose core is `d`, with empty ports. -/
def machine (d : DecoderState) : State := { State.reset with dec := d }

/-- The record `kind [start, stop] data`. -/
def ann (kind : AnnKind) (start stop : Int) (data : Byte) : Annotation :=
  { kind := kind, data := data, start := start, stop := stop }

/-- The outcome is a next state in which `p` holds. -/
def gives (r : Result) (p : State → Bool) : Bool :=
  match r with
  | .next s => p s
  | .fault _ => false
  | .refused _ => false

/-- The command leaves the core as `d`, emits `anns` and is answered `r`. -/
def answers (i : Instr) (pre d : DecoderState) (anns : List Annotation) (r : Response) : Bool :=
  gives (exec i (machine pre)) fun s => s.dec == d && s.out == anns && s.responses == [r]

/-- From `pre`, the edge `(t, l)` forms the vector `v`, and leaves the core as `post` but for the edge
tracker, which becomes `(1, t, l)`; it emits `anns` and is answered `OK`. -/
def edgeGives (pre : DecoderState) (t : Nat) (l : Level) (v : DispatchWord) (post : DecoderState)
    (anns : List Annotation) : Bool :=
  dispatchVector pre { t := t, lvl := l } == v &&
    answers (.edge t l) pre { post with prevValid := true, prevTs := t, prevLevel := l } anns .ok

/-- `IDLE` with the block state clear. -/
def idleOf (d : DecoderState) : DecoderState :=
  { d with
    state := .idle, acc := 0, bitCount := 0, buf := #v[0, 0, 0, 0, 0, 0], byteCount := 0
    bitStart := 0, byteStart := 0 }

/-! ### Host commands (sections 2.2 and 2.6) -/

theorem test_setRate : answers (.setRate 1000000) DecoderState.reset configured [] .ok = true := by
  decide
theorem test_setRate_zero : answers (.setRate 0) preA2 preA2 [] .errRefused = true := by decide
theorem test_setPol :
    answers (.setPol .high) preA2 { preA2 with polarity := .activeHigh } [] .ok = true := by decide
theorem test_start : answers .start configured preA0 [] .ok = true := by decide
theorem test_start_refusals :
    answers .start DecoderState.reset DecoderState.reset [] .errMissingRate = true ∧
    answers .start preA2 preA2 [] .errRefused = true := by decide
theorem test_end : answers .endInput preA5 configured [] .ok = true := by decide
theorem test_end_without_session :
    answers .endInput configured configured [] .errRefused = true := by decide
theorem test_reserved :
    answers .reserved000 preA2 preA2 [] .errRefused = true ∧
    answers .reserved110 configured configured [] .errRefused = true ∧
    answers .reserved111 DecoderState.reset DecoderState.reset [] .errRefused = true := by decide
/-- Section 2.4, refusals at the `EDGE` command; section 2.6. -/
theorem test_edge_refusals :
    answers (.edge 4500 .low) preA2 preA2 [] .errRefused = true ∧
    answers (.edge 4499 .low) preA2 preA2 [] .errRefused = true ∧
    answers (.edge 0 .low) preA2 preA2 [] .errRefused = true ∧
    answers (.edge 10 .low) configured configured [] .errRefused = true := by decide

/-! ### Transition rows (section 2.4) -/

theorem test_tFirst :
    answers (.edge 777 .high) preA0
      { preA0 with prevValid := true, prevTs := 777, prevLevel := .high } [] .ok = true := by decide
theorem test_tIdleIgnore : edgeGives preA1 600 .high 0b10000100010000 preA1 [] = true := by decide
theorem test_tIdleIgnore_overlong :
    edgeGives preA1 50000 .high 0b10001100000010 preA1 [] = true := by decide
theorem test_tIdleLeader :
    edgeGives preA1 4500 .high 0b10000101100010 { preA1 with state := .leaderHigh }
      [ann .leader 0 4500 0] = true := by decide
theorem test_tIdlePol : edgeGives preA1 4500 .low 0b10000001100010 preA1 [] = true := by decide
theorem test_tTimeoutLl :
    edgeGives preA7 123760 .high 0b10011100000010 (idleOf preA7)
      [ann .warning 93760 123760 1] = true := by decide
theorem test_tTimeoutLh :
    edgeGives preA2 34500 .low 0b10101010000010 (idleOf preA2)
      [ann .warning 4500 34500 1] = true := by decide
theorem test_tTimeoutLh_outranks_polarity :
    edgeGives preA2 34500 .high 0b10101000000010 (idleOf preA2)
      [ann .warning 4500 34500 1] = true := by decide
theorem test_tTimeoutDl :
    edgeGives preA3 38850 .high 0b10111100000010 (idleOf preA3)
      [ann .warning 8850 38850 1] = true := by decide
theorem test_tTimeoutDh :
    edgeGives preA4 39450 .low 0b11001010000010 (idleOf preA4)
      [ann .warning 9450 39450 1] = true := by decide
theorem test_tTimeoutSep :
    edgeGives preA6 118650 .low 0b11011010000011 (idleOf preA6)
      [ann .warning 88650 118650 1] = true := by decide
theorem test_tLlOk :
    edgeGives preA7 98260 .high 0b10010101100010 { preA7 with state := .leaderHigh }
      [ann .leader 93760 98260 0] = true := by decide
theorem test_tLlBad :
    edgeGives preA7 96760 .high 0b10010100000000 (idleOf preA7)
      [ann .warning 93760 96760 2] = true := by decide
theorem test_tLlPol :
    edgeGives preA7 98260 .low 0b10010001100010 (idleOf preA7) [] = true := by decide
theorem test_tLhOk :
    edgeGives preA2 8850 .low 0b10100011100010 { preA2 with state := .dataLow }
      [ann .leader 4500 8850 1] = true := by decide
theorem test_tLhBad :
    edgeGives preA2 7500 .low 0b10100010000000 (idleOf preA2) [ann .warning 4500 7500 3] = true := by
  decide
theorem test_tLhPol :
    edgeGives preA2 8850 .high 0b10100001100010 (idleOf preA2) [] = true := by decide
theorem test_tDlSep :
    edgeGives preA5 88650 .high 0b10110100010001 { preA5 with state := .sep } [] = true := by decide
theorem test_tDlBit :
    edgeGives preA3 9450 .high 0b10110100010000
      { preA3 with state := .dataHigh, bitStart := 8850, byteStart := 8850 } [] = true := by decide
theorem test_tDlSkip : edgeGives preA3 9150 .high 0b10110100000000 preA3 [] = true := by decide
theorem test_tDlSkip_full : edgeGives preA5 88350 .high 0b10110100000001 preA5 [] = true := by decide
theorem test_tDhBit0 :
    edgeGives preA4 9950 .low 0b11000010001000 { preA4 with state := .dataLow, bitCount := 1 }
      [ann .bit 8850 9950 0] = true := by decide
theorem test_tDhBit1 :
    edgeGives preA4 11050 .low 0b11000010000100
      { preA4 with state := .dataLow, acc := 1, bitCount := 1 } [ann .bit 8850 11050 1] = true := by
  decide
theorem test_tDhFail :
    edgeGives preA4 10450 .low 0b11000010000000 (idleOf preA4) [] = true := by decide
theorem test_tSepOk :
    edgeGives preA6 92993 .low 0b11010011100011
      { preA6 with state := .leaderLow, byteCount := 0, buf := #v[0, 0, 0, 0, 0, 0] }
      [ann .separator 88051 92993 0] = true := by decide
theorem test_tSepOk_capped :
    edgeGives preA6 118649 .low 0b11010010000011
      { preA6 with state := .leaderLow, byteCount := 0, buf := #v[0, 0, 0, 0, 0, 0] }
      [ann .separator 88051 93759 0] = true := by decide
theorem test_tSepBad :
    edgeGives preA6 92992 .low 0b11010011100001 (idleOf preA6)
      [ann .warning 88650 92992 4] = true := by decide

/-! ### Closing a byte (sections 2.5, 3 P1; 43_assembler.md rule R191's example) -/

/-- `DATA_HIGH` with seven bits received. -/
def sevenBits (n : Nat) (acc : Byte) (byteStart bitStart prevTs : Nat) : DecoderState :=
  { preA4 with
    byteCount := n, bitCount := 7, acc := acc, byteStart := byteStart, bitStart := bitStart
    prevTs := prevTs }

/-- The eighth bit stores the byte and emits `anns`. -/
def closes (pre : DecoderState) (t : Nat) (v : Byte) (anns : List Annotation) : Bool :=
  gives (exec (.edge t .low) (machine pre)) fun s =>
    s.out == anns && bufByte s.dec pre.byteCount == some v && s.dec.byteCount == pre.byteCount + 1 &&
      s.dec.acc == 0 && s.dec.bitCount == 0 && s.dec.state == .dataLow

theorem test_tDhBit0_closes_address :
    closes (sevenBits 0 0x59 9850 21950 22550) 23050 0xB2
      [ann .bit 21950 23050 0, ann .byte 9850 23050 0xB2, ann .address 9850 23050 0xB2] = true := by
  decide
theorem test_tDhBit1_closes_fan :
    closes (sevenBits 2 0x5F 30850 45150 45750) 47350 0xBF
      [ann .bit 45150 47350 1, ann .byte 30850 47350 0xBF, ann .command 30850 36444 0x05] = true := by
  decide
theorem test_byte_four_temperature :
    closes (sevenBits 4 0x06 48450 58350 58950) 59450 0x0C
      [ann .bit 58350 59450 0, ann .byte 48450 59450 0x0C, ann .temperature 48450 53242 0x11,
        ann .command 53242 57638 0x43] = true := by decide
theorem test_byte_four_fan_only :
    closes (sevenBits 4 0x72 48450 60550 61150) 61650 0xE4
      [ann .bit 60550 61650 0, ann .byte 48450 61650 0xE4, ann .command 56242 59638 0x81] = true := by
  decide

/-! ### The classifier at the edges of its windows (section 2.3) -/

theorem test_near_bounds :
    near 3824 4499 = false ∧ near 3825 4499 = true ∧ near 5173 4499 = true ∧
    near 5174 4499 = false ∧ near 85 100 = true ∧ near 100 85 = false ∧ near 1 0 = false ∧
    near 1 (-1) = false ∧ near 1 1 = true ∧ near 2 1 = false := by decide
theorem test_strict_bounds :
    pSep th1M 4342 = false ∧ pSep th1M 4343 = true ∧ pIdle th1M 29999 = false ∧
    pIdle th1M 30000 = true := by decide

/-! ### The notation (30_encoding.md rule R102; section 3, program P8) -/

theorem test_expand_leader :
    (expandText [.line (.rate 20000), .line .start, .line (.edge 7 .low), .leader]
      Cursor.initial).map (·.1) =
    some [.rate 20000, .start, .edge 7 .low, .edge 97 .high, .edge 184 .low] := by decide
theorem test_expand_before_edge : expandLine .bit0 Cursor.initial = none := by decide

/-- The text notation: a comment, a hexadecimal number, a level, a word of no line. -/
theorem test_parse_lines :
    parseLine ['r', 'a', 't', 'e', ' ', '1', '0', '0', ';', ' ', 'x'] =
      some (some (.line (.rate 100))) ∧
    parseLine ['e', 'd', 'g', 'e', ' ', ' ', '0', 'x', '1', 'F', ' ', '1'] =
      some (some (.line (.edge 31 .high))) ∧
    parseLine ['b', 'y', 't', 'e', ' ', '0', 'x', 'B', '2'] = some (some (.byte 0xB2)) ∧
    parseLine [';', 'a'] = some none ∧
    parseLine ['g', 'a', 'p'] = none := by decide

/-- The adapter of entry U2: with the spec's parameter it changes nothing; with the other, a level is
inverted only while the option is active-high. -/
theorem test_adapter (d : DecoderState) (t : Nat) (l : Level) :
    adaptEdge d t l = .edge t l ∧ adaptLevel true .activeHigh l = otherLevel l ∧
      adaptLevel true .activeLow l = l := ⟨rfl, rfl, rfl⟩

/-! ### Placing a word where the next step runs it -/

/-- Every row's match word is placed so that the next `EDGE` selects that row. -/
theorem test_placed_rows :
    (rowTable.all fun p =>
      let s := State.reset.withFetchWord 16 p.matchBits.toNat
      (s.pending.map fun x =>
        match x with
        | .command w =>
          match decodeCmd w with
          | .edge t l => edgeAccepted s.dec { t := t, lvl := l } &&
              selectRow s.dec { t := t, lvl := l } == some p.row
          | _ => false
        | .resetInput _ => false) == [true] && !s.resetAsserted) = true := by decide
theorem test_placed_command :
    gives (step (State.reset.withFetchWord 72 0x200000000000F4240)) (fun s => s.dec == configured) =
      true := by decide

/-! ### Witnesses: for each obligation with hypotheses, one state and operands that meet them -/

/-- The invariant of 10_state.md rule R43 at a running state, from its finite facts. -/
theorem coreInv_running (d : DecoderState) (hr : d.running = true) (hv : d.prevValid = true)
    (hc : d.rateValid = true ∧ 0 < d.rate ∧ d.th = calibrate d.rate)
    (hn : d.bitCount ≤ 7 ∧ d.byteCount ≤ 6 ∧ d.acc.toNat < 2 ^ d.bitCount)
    (hl : d.state = .idle ∨ d.state = .leaderLow ∨ d.state = .leaderHigh →
      d.bitCount = 0 ∧ d.byteCount = 0 ∧ d.acc = 0)
    (hs : d.state = .sep → d.byteCount = 6 ∧ d.bitCount = 0)
    (hh : d.state = .dataHigh → ¬ (d.byteCount = 6 ∧ d.bitCount = 0) ∧ d.byteCount ≤ 5)
    (hf : d.byteCount = 6 → d.bitCount = 0)
    (hb : ∀ i ∈ List.range 6, d.byteCount ≤ i → bufByte d i = some 0) : CoreInv d where
  bitCount_le := hn.1
  byteCount_le := hn.2.1
  acc_lt := hn.2.2
  leader_clear := hl
  sep_full := hs
  dataHigh_open := hh
  running_rate := fun _ => hc.1
  stopped_clear := fun h => absurd (hr.symm.trans h) (by decide)
  full_no_pending := hf
  first_idle := fun h => absurd (hv.symm.trans h) (by decide)
  calibrated := fun _ => hc.2
  uncalibrated := fun h => absurd (hc.1.symm.trans h) (by decide)
  buf_tail := fun i h1 h2 => hb i (List.mem_range.mpr h2) h1

theorem inv_preA1 : Inv (machine preA1) := by
  refine ⟨coreInv_running _ ?_ ?_ ?_ ?_ ?_ ?_ ?_ ?_ ?_, by simp [LegalOut, machine, State.reset]⟩ <;>
    decide
theorem inv_preA2 : Inv (machine preA2) := by
  refine ⟨coreInv_running _ ?_ ?_ ?_ ?_ ?_ ?_ ?_ ?_ ?_, by simp [LegalOut, machine, State.reset]⟩ <;>
    decide
theorem inv_preA3 : Inv (machine preA3) := by
  refine ⟨coreInv_running _ ?_ ?_ ?_ ?_ ?_ ?_ ?_ ?_ ?_, by simp [LegalOut, machine, State.reset]⟩ <;>
    decide
theorem inv_preA6 : Inv (machine preA6) := by
  refine ⟨coreInv_running _ ?_ ?_ ?_ ?_ ?_ ?_ ?_ ?_ ?_, by simp [LegalOut, machine, State.reset]⟩ <;>
    decide
theorem inv_preA0 : Inv (machine preA0) :=
  ⟨{ bitCount_le := by decide
     byteCount_le := by decide
     acc_lt := by decide
     leader_clear := fun _ => by decide
     sep_full := fun h => absurd h (by decide)
     dataHigh_open := fun h => absurd h (by decide)
     running_rate := fun _ => rfl
     stopped_clear := fun h => absurd h (by decide)
     full_no_pending := by decide
     first_idle := fun _ => rfl
     calibrated := fun _ => by decide
     uncalibrated := fun h => absurd h (by decide)
     buf_tail := fun i _ h =>
      (by decide : ∀ i ∈ List.range 6, bufByte preA0 i = some 0) i (List.mem_range.mpr h) },
    by simp [LegalOut, machine, State.reset]⟩

theorem witness_DecodeOfEncodeIsIdentity :
    (Instr.setRate (2 ^ 64 - 1)).wf = true ∧ (Instr.edge 0 .low).wf = true := by decide

theorem witness_CommandFieldsSelectInstruction :
    (0x10000000000000000 : CmdWord).toNat / 2 ^ 65 = 0 ∧
    (0x3FFFFFFFFFFFFFFFF : CmdWord).toNat / 2 ^ 65 = 1 ∧
    (0x50000000000000000 : CmdWord).toNat / 2 ^ 65 = 2 ∧
    (0x60000000000000007 : CmdWord).toNat / 2 ^ 65 = 3 ∧
    (0x9FFFFFFFFFFFFFFFF : CmdWord).toNat / 2 ^ 65 = 4 ∧
    (0xA0000000000000000 : CmdWord).toNat / 2 ^ 65 = 5 ∧
    (0xD0000000000000005 : CmdWord).toNat / 2 ^ 65 = 6 ∧
    (0xFFFFFFFFFFFFFFFFF : CmdWord).toNat / 2 ^ 65 = 7 := by decide

theorem witness_TransitionRowsDisjointAndCovering :
    (⟨.tSepOk, 0x3402, 0x3E02⟩ : RowPattern) ∈ rowTable ∧
    (0b11010011100011 : DispatchWord) &&& 0x3E02 = 0x3402 ∧
    (0b11010011100011 : DispatchWord).getLsbD 13 = true ∧
    ((0b11010011100011 : DispatchWord).extractLsb' 10 3).toNat ≤ 5 ∧
    (0b11100000000000 : DispatchWord).getLsbD 13 = true ∧
    6 ≤ ((0b11100000000000 : DispatchWord).extractLsb' 10 3).toNat := by decide

/-- The two edges differ and form one vector. -/
theorem witness_DispatchVectorBits :
    preA1.prevValid = true ∧
    dispatchVector preA1 { t := 4500, lvl := .high } =
      dispatchVector preA1 { t := 4501, lvl := .high } ∧
    (0b01111111111111 : DispatchWord).getLsbD 13 = false := by decide

/-- A machine with one command pending. -/
def issued (w : CmdWord) (d : DecoderState) : State := { machine d with pending := [.command w] }

theorem witness_StepRunsDecodedCommand :
    (issued 0x9000000000000157C preA1).pending = .command 0x9000000000000157C :: [] ∧
    (issued 0x9000000000000157C preA1).resetAsserted = false ∧
    (holdInReset (issued 0x9000000000000157C preA1)).pending = .command 0x9000000000000157C :: [] ∧
    (holdInReset (issued 0x9000000000000157C preA1)).resetAsserted = true ∧
    (Instr.edge 5500 .high).wf = true ∧
    encode (.edge 5500 .high) = .command 0x9000000000000157C := by decide

/-- Asserting, releasing, and releasing what is not asserted. -/
theorem witness_ResetInputAndIdleWait :
    ({ machine preA6 with pending := [.resetInput true] } : State).pending = .resetInput true :: [] ∧
    ({ machine preA6 with pending := [.resetInput false] } : State).pending =
      .resetInput false :: [] ∧
    (machine preA6).resetAsserted = false ∧ (holdInReset (machine preA6)).resetAsserted = true ∧
    (machine preA6).pending = [] := by decide

/-- A reset with a command in it that is not accepted, and one after it that is. -/
def resetWithCommands : State :=
  { machine preA6 with
    pending := [.resetInput true, .command 0x60000000000000000, .resetInput false,
      .command 0x20000000000004E20] }

theorem witness_ResetHoldsTheCore :
    resetWithCommands.pending = .resetInput true ::
      ([(0x60000000000000000 : CmdWord)].map .command ++ .resetInput false ::
        [.command 0x20000000000004E20]) ∧
    HeldInReset (holdInReset (machine preA6)) ∧
    gives (step (holdInReset (issued 0x60000000000000000 preA6)))
      (fun s => s.resetAsserted && s.responses == []) = true :=
  ⟨rfl, fun _ => ⟨rfl, rfl, rfl, rfl⟩, by decide⟩

/-- 70_reset_and_hazards.md rule R280: a step with the reset input asserted answers no command; after
the release the next one is accepted. -/
theorem test_reset_holds :
    gives (Sys2Proof.core.run 2 resetWithCommands)
      (fun s => s.dec == DecoderState.reset && s.responses == []) = true ∧
    gives (Sys2Proof.core.run 4 resetWithCommands)
      (fun s => s.dec.rate == 20000 && s.responses == [.ok]) = true := by decide

/-- The last refused and the first accepted timestamp. -/
theorem witness_EdgeRunsMatchingRow :
    (preA2.prevValid = true ∧ 4500 ≤ preA2.prevTs) ∧ configured.running = false ∧
    preA2.running = true ∧ (preA2.prevValid = true → preA2.prevTs < 4501) ∧
    (⟨.tLhBad, 0x2880, 0x3EA0⟩ : RowPattern) ∈ rowTable ∧
    dispatchVector preA2 { t := 4501, lvl := .low } &&& 0x3EA0 = 0x2880 := by decide

theorem witness_SetRateRecomputesThresholds :
    gives (exec (.setRate 0) (machine preA2)) (fun s => s.responses == [.errRefused]) = true ∧
    gives (exec (.setRate 1) (machine preA2)) (fun s => s.responses == [.ok]) = true := by decide

theorem witness_ReservedOpcodesRefused :
    Instr.reserved110 ∈ [Instr.reserved000, .reserved110, .reserved111] := by decide

theorem witness_ThresholdsMonotone :
    Config.usLeadHigh ∈ [Config.usIdle, Config.usLeadLow, Config.usLeadHigh, Config.usSepLow,
      Config.usSepHigh, Config.usBitLow, Config.usBit0High, Config.usBit1High] ∧
    1999 ≤ 2000 := by decide

/-- A running machine at 33 samples per second, where every threshold is -1 (section 2.2), in a state
other than `IDLE`. -/
theorem witness_ThresholdSigns :
    (let d := { preA2 with rate := 33, th := calibrate 33 }
     Measured d 4501 ∧ d.state ≠ .idle ∧ d.th.idle = -1) ∧ 1999 * 500 < 1000000 :=
  ⟨⟨⟨by decide, by decide, by decide⟩, by decide, by decide⟩, by decide⟩

/-- The least rate and width at which each window is non-empty. -/
theorem witness_WindowsNeverConflict :
    pLl (calibrate 445) 1 = true ∧ pLh (calibrate 460) 1 = true ∧ pB1 (calibrate 1250) 1 = true ∧
    pBl (calibrate 3334) 1 = true ∧ pB0 (calibrate 4000) 1 = true ∧
    pIdle (calibrate 1000000) 30000 = true := by decide

theorem witness_StartBeginsSession :
    preA2.running = true ∧ DecoderState.reset.running = false ∧
    DecoderState.reset.rateValid = false ∧ configured.running = false ∧
    configured.rateValid = true := by decide

theorem witness_EndClosesSession : configured.running = false ∧ preA5.running = true := by decide

theorem witness_AcceptanceByLifecycleMode :
    Inv (machine preA2) ∧
    acceptance (.edge 4500 .low) preA2 = some (.errRefused, .running) ∧
    acceptance (.edge 4501 .low) preA2 = some (.ok, .running) ∧
    acceptance .endInput preA2 = some (.ok, .configured) :=
  ⟨inv_preA2, by decide, by decide, by decide⟩

theorem measured_preA1 (t : Nat) (h : 0 < t) : Measured preA1 t := ⟨rfl, rfl, h⟩
theorem measured_preA2 (t : Nat) (h : 4500 < t) : Measured preA2 t := ⟨rfl, rfl, h⟩
theorem measured_preA3 (t : Nat) (h : 8850 < t) : Measured preA3 t := ⟨rfl, rfl, h⟩
theorem measured_preA4 (t : Nat) (h : 9450 < t) : Measured preA4 t := ⟨rfl, rfl, h⟩
theorem measured_preA5 (t : Nat) (h : 88050 < t) : Measured preA5 t := ⟨rfl, rfl, h⟩
theorem measured_preA6 (t : Nat) (h : 88650 < t) : Measured preA6 t := ⟨rfl, rfl, h⟩
theorem measured_preA7 (t : Nat) (h : 93760 < t) : Measured preA7 t := ⟨rfl, rfl, h⟩

/-- Widths 3824 in `IDLE` and 509 in `DATA_LOW`, one below their windows. -/
theorem witness_QuietRowsOnlyTrackTheEdge :
    (preA0.running = true ∧ preA0.prevValid = false ∧ Inv (machine preA0)) ∧
    (Measured preA1 3824 ∧ preA1.state = .idle ∧ ¬ InWindow (3824 - preA1.prevTs) preA1.th.leadLow) ∧
    (Measured preA3 9359 ∧ preA3.state = .dataLow ∧ NotIdle preA3 9359 ∧
      ¬ InWindow (9359 - preA3.prevTs) preA3.th.bitLow) := by
  refine ⟨⟨rfl, rfl, inv_preA0⟩, ⟨measured_preA1 _ (by decide), rfl, ?_⟩,
    measured_preA3 _ (by decide), rfl, ?_, ?_⟩
  all_goals first
    | decide
    | (simp only [InWindow, NotIdle]; decide)

/-- Widths 3825 and 5173, the bounds of the window, from `IDLE` and from `LEADER_LOW`. -/
theorem witness_LeaderLowOpensBlock :
    (Measured preA1 3825 ∧ preA1.state = .idle ∧ InWindow (3825 - preA1.prevTs) preA1.th.leadLow ∧
      Rise preA1 .high) ∧
    (Measured preA7 98933 ∧ preA7.state = .leaderLow ∧ NotIdle preA7 98933 ∧
      InWindow (98933 - preA7.prevTs) preA7.th.leadLow ∧ Rise preA7 .high) := by
  refine ⟨⟨measured_preA1 _ (by decide), rfl, ?_, ?_⟩, measured_preA7 _ (by decide), rfl, ?_, ?_, ?_⟩
  all_goals first
    | decide
    | (simp only [InWindow, NotIdle, Rise]; decide)

/-- One edge for each of the four alternatives; width 574 is one above the window of a 0 bit. -/
theorem witness_SilentResetRows :
    (Measured preA1 4500 ∧ preA1.state = .idle ∧ InWindow (4500 - preA1.prevTs) preA1.th.leadLow ∧
      ¬ Rise preA1 .low) ∧
    (Measured preA7 98260 ∧ preA7.state = .leaderLow ∧ NotIdle preA7 98260 ∧ ¬ Rise preA7 .low) ∧
    (Measured preA2 8850 ∧ preA2.state = .leaderHigh ∧ NotIdle preA2 8850 ∧ ¬ Fall preA2 .high) ∧
    (Measured preA4 10024 ∧ preA4.state = .dataHigh ∧ NotIdle preA4 10024 ∧
      ¬ InWindow (10024 - preA4.prevTs) preA4.th.bit0High ∧
      ¬ InWindow (10024 - preA4.prevTs) preA4.th.bit1High) := by
  refine ⟨⟨measured_preA1 _ (by decide), rfl, ?_, ?_⟩, ⟨measured_preA7 _ (by decide), rfl, ?_, ?_⟩,
    ⟨measured_preA2 _ (by decide), rfl, ?_, ?_⟩, measured_preA4 _ (by decide), rfl, ?_, ?_, ?_⟩
  all_goals first
    | decide
    | (simp only [InWindow, NotIdle, Rise, Fall]; decide)

/-- Width 30000, the least over-long one. -/
theorem witness_IdleTimeoutWarnsAndResets :
    Measured preA3 38850 ∧ preA3.state ≠ .idle ∧
      preA3.th.idle < ((38850 - preA3.prevTs : Nat) : Int) :=
  ⟨measured_preA3 _ (by decide), by decide, by decide⟩

/-- Widths 3824 in `LEADER_LOW`, 5002 in `LEADER_HIGH`, 4342 in `SEP`. -/
theorem witness_TimingViolationsWarnAndReset :
    (Measured preA7 97584 ∧ NotIdle preA7 97584 ∧ preA7.state = .leaderLow ∧ Rise preA7 .high ∧
      ¬ InWindow (97584 - preA7.prevTs) preA7.th.leadLow) ∧
    (Measured preA2 9502 ∧ NotIdle preA2 9502 ∧ preA2.state = .leaderHigh ∧ Fall preA2 .low ∧
      ¬ InWindow (9502 - preA2.prevTs) preA2.th.leadHigh) ∧
    (Measured preA6 92992 ∧ NotIdle preA6 92992 ∧ preA6.state = .sep ∧
      100 * ((92992 - preA6.prevTs : Nat) : Int) ≤ 85 * preA6.th.sepHigh) := by
  refine ⟨⟨measured_preA7 _ (by decide), ?_, rfl, ?_, ?_⟩,
    ⟨measured_preA2 _ (by decide), ?_, rfl, ?_, ?_⟩, measured_preA6 _ (by decide), ?_, rfl, ?_⟩
  all_goals first
    | decide
    | (simp only [InWindow, NotIdle, Rise, Fall]; decide)

/-- Width 5001, the greatest of the window. -/
theorem witness_LeaderHighBeginsData :
    Inv (machine preA2) ∧ Measured preA2 9501 ∧ preA2.state = .leaderHigh ∧ NotIdle preA2 9501 ∧ Fall preA2 .low ∧
      InWindow (9501 - preA2.prevTs) preA2.th.leadHigh := by
  refine ⟨inv_preA2, measured_preA2 _ (by decide), rfl, ?_, ?_, ?_⟩
  all_goals first
    | decide
    | (simp only [InWindow, NotIdle, Fall]; decide)

/-- Width 510 after the sixth byte, width 688 before it. -/
theorem witness_DataLowPulses :
    (Measured preA5 88560 ∧ preA5.state = .dataLow ∧ NotIdle preA5 88560 ∧
      InWindow (88560 - preA5.prevTs) preA5.th.bitLow ∧ preA5.byteCount = 6 ∧ preA5.bitCount = 0) ∧
    (Measured preA3 9538 ∧ preA3.state = .dataLow ∧ NotIdle preA3 9538 ∧
      InWindow (9538 - preA3.prevTs) preA3.th.bitLow ∧
      ¬ (preA3.byteCount = 6 ∧ preA3.bitCount = 0)) := by
  refine ⟨⟨measured_preA5 _ (by decide), rfl, ?_, ?_, rfl, rfl⟩,
    measured_preA3 _ (by decide), rfl, ?_, ?_, ?_⟩
  all_goals first
    | decide
    | (simp only [InWindow, NotIdle]; decide)

/-- For `DecodedBitIsAppended`, `EighthBitClosesByte` and `SeventhByteFaults`: no bit and seven bits
received, the last byte of the buffer and none left. -/
theorem witness_bits :
    preA4.bitCount ≠ 7 ∧ (sevenBits 5 0 0 0 0).bitCount = 7 ∧ (sevenBits 5 0 0 0 0).byteCount < 6 ∧
    (sevenBits 6 0 0 0 0).bitCount = 7 ∧ 6 ≤ (sevenBits 6 0 0 0 0).byteCount := by decide

/-- Widths 573 and 1360, the bounds that face each other. -/
theorem witness_DataHighPulsesDiscriminate :
    (Measured preA4 10023 ∧ preA4.state = .dataHigh ∧ NotIdle preA4 10023 ∧
      InWindow (10023 - preA4.prevTs) preA4.th.bit0High) ∧
    (Measured preA4 10810 ∧ NotIdle preA4 10810 ∧
      ¬ InWindow (10810 - preA4.prevTs) preA4.th.bit0High ∧
      InWindow (10810 - preA4.prevTs) preA4.th.bit1High) := by
  refine ⟨⟨measured_preA4 _ (by decide), rfl, ?_, ?_⟩, measured_preA4 _ (by decide), ?_, ?_, ?_⟩
  all_goals first
    | decide
    | (simp only [InWindow, NotIdle]; decide)

/-- Width 4343, the least of the separator. -/
theorem witness_SeparatorCompletesBlock :
    Measured preA6 92993 ∧ preA6.state = .sep ∧ NotIdle preA6 92993 ∧
      85 * preA6.th.sepHigh < 100 * ((92993 - preA6.prevTs : Nat) : Int) := by
  refine ⟨measured_preA6 _ (by decide), rfl, ?_, ?_⟩
  all_goals first
    | decide
    | (simp only [NotIdle]; decide)

theorem witness_BufferFrame :
    gives (exec .tDhBit1 (machine preA4)) (fun _ => true) = true ∧
    gives (exec .tDhBit0 (machine (sevenBits 5 0x59 0 0 0))) (fun _ => true) = true ∧
    gives (exec (.setRate 20000) (machine preA5)) (fun _ => true) = true := by decide

/-- Every step from these states answers a next state, so the hypotheses of the statements over a
step (`EveryStepKeepsInvariant`, `NothingHaltsTheCore`) are met. -/
theorem witness_steps :
    Inv (machine preA6) ∧ gives (step (machine preA6)) (fun _ => true) = true :=
  ⟨inv_preA6, by decide⟩

/-- A pending command that answers (`OneResponsePerCommand`, `CommandsAppendAtMostFour`). -/
theorem witness_pending_command :
    (issued 0x80000000000000000 preA2).pending = .command 0x80000000000000000 :: [] ∧
    (issued 0x80000000000000000 preA2).resetAsserted = false ∧
    gives (step (issued 0x80000000000000000 preA2)) (fun s => s.responses == [.errRefused]) = true ∧
    gives (step (issued 0x8000000000000E83A (sevenBits 4 0x06 48450 58350 58950)))
      (fun s => s.out.length == 4) = true := by decide

theorem witness_WarningMeansFullReset :
    acceptance (.edge 7500 .low) preA2 ≠ none ∧
    gives (exec (.edge 7500 .low) (machine preA2))
      (fun s => s.out == [ann .warning 4500 7500 3]) = true := by decide

theorem witness_OverlongPulseHeals :
    Inv (machine preA6) ∧ Measured preA6 118650 ∧
      preA6.th.idle < ((118650 - preA6.prevTs : Nat) : Int) :=
  ⟨inv_preA6, measured_preA6 _ (by decide), by decide⟩

/-- The edges that enter `LEADER_LOW`, `SEP` and `DATA_HIGH`. -/
theorem witness_EdgesFollowTheGraph :
    (Measured preA6 92993 ∧ gives (exec (.edge 92993 .low) (machine preA6))
      (fun s => s.dec.state == .leaderLow) = true) ∧
    (Measured preA5 88650 ∧ gives (exec (.edge 88650 .high) (machine preA5))
      (fun s => s.dec.state == .sep) = true) ∧
    (Measured preA3 9450 ∧ gives (exec (.edge 9450 .high) (machine preA3))
      (fun s => s.dec.state == .dataHigh) = true) :=
  ⟨⟨measured_preA6 _ (by decide), by decide⟩, ⟨measured_preA5 _ (by decide), by decide⟩,
    measured_preA3 _ (by decide), by decide⟩

theorem witness_ConfigurationWriters :
    gives (exec (.setRate 20000) (machine preA2)) (fun s => s.dec.th.idle == 599) = true ∧
    gives (exec (.setPol .high) (machine preA2)) (fun s => s.dec.polarity == .activeHigh) = true ∧
    gives (exec .endInput (machine preA2)) (fun s => s.dec.running == false) = true := by decide

/-- Two machines that differ in all three dead registers and take a step. -/
theorem witness_DeadRegistersDoNotInterfere :
    AgreeState (machine preA2)
      (machine { preA2 with polarity := .activeHigh, rate := 7, th := { th1M with sepLow := 0 } }) ∧
    gives (step (machine preA2)) (fun _ => true) = true :=
  ⟨⟨rfl, rfl, rfl, rfl, rfl, rfl⟩, by decide⟩

/-- A bit symbol of value `b` with the greatest low pulse and the least high pulse of its windows at
1,000,000 samples per second. -/
def symbol (b : Bool) : BitSymbol := { value := b, low := 688, high := if b then 1360 else 425 }

theorem symbol_fits (b : Bool) : (symbol b).fits th1M := by
  cases b <;> simp only [BitSymbol.fits, InWindow] <;> decide

theorem witness_EightSymbolsAreOneByte :
    Inv (machine preA3) ∧ preA3.running = true ∧ preA3.state = .dataLow ∧ preA3.bitCount = 0 ∧
      preA3.byteCount < 6 ∧ (List.replicate 8 (symbol true)).length = 8 ∧
      (∀ b ∈ List.replicate 8 (symbol true), b.fits preA3.th) :=
  ⟨inv_preA3, rfl, rfl, rfl, by decide, rfl, fun b hb => List.eq_of_mem_replicate hb ▸ symbol_fits true⟩

/-- Every pulse at a bound of its window: 3825, 5001, 688, 4343. -/
theorem witness_WellFormedBlockDecodes :
    Inv (machine preA1) ∧ preA1.running = true ∧ preA1.prevValid = true ∧ preA1.prevLevel = .low ∧
      preA1.state = .idle ∧ InWindow 3825 preA1.th.leadLow ∧ InWindow 5001 preA1.th.leadHigh ∧
      InWindow 688 preA1.th.bitLow ∧ 85 * preA1.th.sepHigh < 100 * ((4343 : Nat) : Int) ∧
      ((4343 : Nat) : Int) ≤ preA1.th.idle ∧
      (List.replicate 6 (List.replicate 8 (symbol false))).length = 6 ∧
      (∀ bs ∈ List.replicate 6 (List.replicate 8 (symbol false)),
        bs.length = 8 ∧ ∀ b ∈ bs, b.fits preA1.th) := by
  refine ⟨inv_preA1, rfl, rfl, rfl, rfl, ?_, ?_, ?_, by decide, by decide, rfl, ?_⟩
  · simp only [InWindow]; decide
  · simp only [InWindow]; decide
  · simp only [InWindow]; decide
  · intro bs hbs
    rw [List.eq_of_mem_replicate hbs]
    exact ⟨rfl, fun b hb => List.eq_of_mem_replicate hb ▸ symbol_fits false⟩

end Sys2Proof.Tests
end

/-! SUPPORT. What a transition row's selection says of the core: the state it is a row of, and
whether the block is full (30_encoding.md rules R93, R94). -/

namespace Sys2Proof.Proofs

open Sys2Proof.Machine Sys2Proof.Safety

/-- The FSM state in which a row of the transition table is performed; `T_FIRST` looks at none. -/
def rowSource : Row → Option FsmState
  | .tFirst => none
  | .tIdleIgnore | .tIdleLeader | .tIdlePol => some .idle
  | .tTimeoutLl | .tLlOk | .tLlBad | .tLlPol => some .leaderLow
  | .tTimeoutLh | .tLhOk | .tLhBad | .tLhPol => some .leaderHigh
  | .tTimeoutDl | .tDlSep | .tDlBit | .tDlSkip => some .dataLow
  | .tTimeoutDh | .tDhBit0 | .tDhBit1 | .tDhFail => some .dataHigh
  | .tTimeoutSep | .tSepOk | .tSepBad => some .sep

/-- Whether a row needs a full block (`some true`), one that is not (`some false`), or looks at
neither. -/
def rowFull : Row → Option Bool
  | .tDlSep => some true
  | .tDlBit => some false
  | _ => none

theorem rowTable_source (f : FsmState) : ∀ p ∈ rowTable, rowSource p.row = some f →
    p.mask.extractLsb' 10 3 = BitVec.allOnes 3 ∧ p.matchBits.extractLsb' 10 3 = f.code := by
  cases f <;> decide

theorem rowTable_full (b : Bool) : ∀ p ∈ rowTable, rowFull p.row = some b →
    p.mask.getLsbD 0 = true ∧ p.matchBits.getLsbD 0 = b := by
  cases b <;> decide

/-- A selected row stands in the table, and its pattern applies to the vector. -/
theorem decodeRow_mem {v : DispatchWord} {r : Row} (h : decodeRow v = some r) :
    ∃ p ∈ rowTable, p.row = r ∧ v &&& p.mask = p.matchBits := by
  obtain ⟨p, hp, hr⟩ := Option.map_eq_some_iff.mp h
  exact ⟨p, List.mem_of_find?_eq_some hp, hr,
    by simpa [RowPattern.applies] using List.find?_some hp⟩

/-- A bit of a vector with one bit appended; the width is `n + 1`, so that it applies to a vector
whose width is a numeral. -/
theorem getLsbD_append_bit {n : Nat} (x : BitVec n) (y : BitVec 1) (i : Nat) :
    BitVec.getLsbD (w := n + 1) (x ++ y) i = if i < 1 then y.getLsbD i else x.getLsbD (i - 1) :=
  BitVec.getLsbD_append

theorem getLsbD_append_code (b : BitVec 1) (c : BitVec 3) (i : Nat) :
    BitVec.getLsbD (w := 4) (b ++ c) i = if i < 3 then c.getLsbD i else b.getLsbD (i - 3) :=
  BitVec.getLsbD_append

theorem dispatchVector_state (d : DecoderState) (e : Edge) :
    (dispatchVector d e).extractLsb' 10 3 = d.state.code := by
  apply BitVec.eq_of_getLsbD_eq
  intro i hi
  interval_cases i <;>
    simp [BitVec.getLsbD_extractLsb', dispatchVector, getLsbD_append_bit, getLsbD_append_code,
      -BitVec.getLsbD_eq_getElem]

theorem dispatchVector_full (d : DecoderState) (e : Edge) :
    (dispatchVector d e).getLsbD 0 = pFull d := by
  simp [dispatchVector, getLsbD_append_bit, -BitVec.getLsbD_eq_getElem]

theorem code_injective {f g : FsmState} (h : f.code = g.code) : f = g := by
  simpa using congrArg FsmState.ofCode h

/-- A row is selected only in the state it is a row of. -/
theorem selectRow_source {d : DecoderState} {e : Edge} {r : Row} {f : FsmState}
    (h : selectRow d e = some r) (hf : rowSource r = some f) : d.state = f := by
  obtain ⟨p, hp, rfl, hv⟩ := decodeRow_mem h
  obtain ⟨hm, hc⟩ := rowTable_source f p hp hf
  apply code_injective
  rw [← hc, ← hv, BitVec.extractLsb'_and, hm, dispatchVector_state, BitVec.and_allOnes]

/-- A row that looks at `P_full` is selected only when it has the value the row names. -/
theorem selectRow_full {d : DecoderState} {e : Edge} {r : Row} {b : Bool}
    (h : selectRow d e = some r) (hb : rowFull r = some b) : pFull d = b := by
  obtain ⟨p, hp, rfl, hv⟩ := decodeRow_mem h
  obtain ⟨hm, hc⟩ := rowTable_full b p hp hb
  rw [← hc, ← hv, BitVec.getLsbD_and, hm, dispatchVector_full, Bool.and_true]

end Sys2Proof.Proofs

/-! SUPPORT. The configuration registers: every row keeps them, and each host command names those it
writes (10_state.md rules R29, R39, R40). -/

namespace Sys2Proof.Proofs

open Sys2Proof.Machine Sys2Proof.Safety Sys2Proof.Laws

/-- The configuration registers and the flag `running` are those of `d` (10_state.md rules R29 to
R40). -/
structure SameConfig (d d' : DecoderState) : Prop where
  rateValid : d'.rateValid = d.rateValid
  running : d'.running = d.running
  rate : d'.rate = d.rate
  th : d'.th = d.th
  polarity : d'.polarity = d.polarity

theorem sameConfig_bitEffect {b : Bool} {s : State} {d : DecoderState} {as : List Annotation}
    (h : BitEffect b s d as) : SameConfig s.dec d := by
  obtain ⟨-, rfl, -⟩ | ⟨-, -, rfl, -⟩ := h <;> exact ⟨rfl, rfl, rfl, rfl, rfl⟩

/-- No transition row writes the configuration. -/
theorem sameConfig_rowEffect {r : Row} {s : State} {d : DecoderState} {as : List Annotation}
    (h : RowEffect r s d as) : SameConfig s.dec d := by
  cases r with
  | tDhBit0 | tDhBit1 => exact sameConfig_bitEffect h
  | _ =>
    obtain ⟨rfl, -⟩ := h
    exact ⟨rfl, rfl, rfl, rfl, rfl⟩

/-- An edge step that leaves the core as `d` but for the tracker has the configuration of `d`. -/
theorem sameConfig_edgeDone {s s' : State} {d : DecoderState} {as : List Annotation}
    (h : SameConfig s.dec d) (he : edgeDone s d as = .next s') : SameConfig s.dec s'.dec := by
  rw [edgeDone_inj] at he
  subst he
  exact ⟨h.rateValid, h.running, h.rate, h.th, h.polarity⟩

/-- An instruction that answers a next state keeps the configuration, or is a host command with its
effect. -/
theorem exec_sameConfig_or_command {i : Instr} {s s' : State} (h : exec i s = .next s') :
    SameConfig s.dec s'.dec ∨ CommandEffect i s.dec s'.dec := by
  rcases exec_effect i s s' h with
    ⟨r, -, ha⟩ | ⟨d, hc, hd⟩ | ⟨t, l, r, d, as, -, -, -, hr, he⟩ | ⟨r, d, as, -, hr, he⟩
  · rw [onlyAnswered_inj] at ha
    subst ha
    exact .inl ⟨rfl, rfl, rfl, rfl, rfl⟩
  · cases hd
    exact .inr hc
  · exact .inl (sameConfig_edgeDone (s := withEdge s t l) (sameConfig_rowEffect hr) he)
  · exact .inl (sameConfig_edgeDone (sameConfig_rowEffect hr) he)

/-- Settles O50: of the instructions only the host commands write the configuration, and the effect
of each names the registers it writes. -/
theorem configurationWriters : Obligations.ConfigurationWriters := by
  intro s s' i h
  rcases exec_sameConfig_or_command h with
    hk | ⟨R, hR, rfl, hd⟩ | ⟨l, rfl, hd⟩ | ⟨rfl, -, -, hd⟩ | ⟨rfl, -, hd⟩
  · simp [hk.th, hk.rate, hk.rateValid, hk.polarity, hk.running]
  · simp [hd, hR]
  · simp [hd]
  · simp [hd]
  · simp [hd]

end Sys2Proof.Proofs

/-! SUPPORT. The dead registers: a step commutes with erasing `polarity`, `th_sep_low` and `rate`
(10_state.md rules R30, R34, R40). -/

namespace Sys2Proof.Proofs

open Sys2Proof.Machine Sys2Proof.Safety Sys2Proof.Laws

/-- The registers that no rule reads, at their reset values. -/
def eraseDec (d : DecoderState) : DecoderState :=
  { d with polarity := .activeLow, rate := 0, th := { d.th with sepLow := 0 } }

/-- The machine with those registers erased. -/
def eraseDead (s : State) : State := { s with dec := eraseDec s.dec }

/-- The outcome with those registers erased in its next state. -/
def eraseResult : Result → Result
  | .next s => .next (eraseDead s)
  | .fault f => .fault f
  | .refused r => .refused r

/-- The core `d` with the dead registers of `src`. -/
def copyDead (src d : DecoderState) : DecoderState :=
  { d with
    polarity := src.polarity, rate := src.rate, th := { d.th with sepLow := src.th.sepLow } }

theorem agreeButDead_iff (d1 d2 : DecoderState) :
    AgreeButDead d1 d2 ↔ eraseDec d1 = eraseDec d2 := by
  constructor
  · intro h
    exact (congrArg eraseDec (h : copyDead d2 d1 = d2) :)
  · intro h
    exact (congrArg (copyDead d2) h :)

/-- Two machines agree but for the dead registers exactly when erasing these makes them equal. -/
theorem agreeState_iff (s1 s2 : State) : AgreeState s1 s2 ↔ eraseDead s1 = eraseDead s2 := by
  simp [AgreeState, agreeButDead_iff, eraseDead]

/-- The end of an edge step commutes with the erasure. -/
theorem eraseResult_edgeDone (s : State) (d : DecoderState) (as : List Annotation) :
    eraseResult (edgeDone s d as) = edgeDone (eraseDead s) (eraseDec d) as := rfl

theorem decodeBit_eraseDead (b : Bool) (s : State) :
    decodeBit b (eraseDead s) = eraseResult (decodeBit b s) := by
  by_cases h7 : s.dec.bitCount = 7
  · by_cases h6 : s.dec.byteCount < 6
    · rw [decodeBit_close b s h7 h6, decodeBit_close b (eraseDead s) h7 h6,
        eraseResult_edgeDone]
      rfl
    · rw [decodeBit_fault b s h7 (by omega), decodeBit_fault b (eraseDead s) h7 (Nat.not_lt.mp h6)]
      rfl
  · rw [decodeBit_open b s h7, decodeBit_open b (eraseDead s) h7, eraseResult_edgeDone]
    rfl

theorem runRow_eraseDead (r : Row) (s : State) :
    runRow r (eraseDead s) = eraseResult (runRow r s) := by
  cases r with
  | tDhBit0 => exact decodeBit_eraseDead false s
  | tDhBit1 => exact decodeBit_eraseDead true s
  | _ => rfl

theorem execEdge_eraseDead (t : Nat) (l : Level) (s : State) :
    execEdge t l (eraseDead s) = eraseResult (execEdge t l s) := by
  have ha : edgeAccepted (eraseDead s).dec { t := t, lvl := l } =
    edgeAccepted s.dec { t := t, lvl := l } := rfl
  have hr : selectRow (eraseDead s).dec { t := t, lvl := l } =
    selectRow s.dec { t := t, lvl := l } := rfl
  unfold execEdge
  simp only [ha, hr]
  cases edgeAccepted s.dec { t := t, lvl := l } with
  | false => rfl
  | true =>
    cases selectRow s.dec { t := t, lvl := l } with
    | none => rfl
    | some r => exact runRow_eraseDead r { s with edge := { t := t, lvl := l } }

/-- An instruction does the same whether or not the dead registers are erased before it, once
they are erased after it. -/
theorem exec_eraseDead (i : Instr) (s : State) :
    eraseResult (exec i (eraseDead s)) = eraseResult (exec i s) := by
  cases i with
  | edge t l =>
    simp only [exec, execEdge_eraseDead]
    cases execEdge t l s <;> rfl
  | setRate R =>
    simp only [exec, execSetRate, apply_ite eraseResult]
    rfl
  | start =>
    simp only [exec, execStart, apply_ite eraseResult]
    rfl
  | endInput =>
    simp only [exec, execEndInput, apply_ite eraseResult]
    rfl
  | tDhBit0 =>
    simp only [exec, execTDhBit0, decodeBit_eraseDead]
    cases decodeBit false s <;> rfl
  | tDhBit1 =>
    simp only [exec, execTDhBit1, decodeBit_eraseDead]
    cases decodeBit true s <;> rfl
  | _ => rfl

theorem driveReset_eraseDead (a : Bool) (s : State) :
    eraseDead (driveReset a (eraseDead s)) = eraseDead (driveReset a s) := by
  simp only [driveReset, apply_ite eraseDead]
  rfl

/-- A step does the same whether or not the dead registers are erased before it, once they are
erased after it. -/
theorem step_eraseDead (s : State) :
    eraseResult (step (eraseDead s)) = eraseResult (step s) := by
  cases hp : s.pending with
  | nil =>
    rw [step_idle s hp, step_idle (eraseDead s) hp]
    rfl
  | cons x rest =>
    cases x with
    | resetInput a =>
      rw [step_resetInput s a rest hp, step_resetInput (eraseDead s) a rest hp]
      exact congrArg Host.Outcome.next (driveReset_eraseDead a { s with pending := rest })
    | command w =>
      rw [step_command s w rest hp, step_command (eraseDead s) w rest hp]
      simp only [apply_ite eraseResult]
      exact if_congr Iff.rfl rfl (exec_eraseDead (decodeCmd w) { s with pending := rest })

theorem eraseResult_eq_next {r : Result} {t : State} (h : eraseResult r = .next t) :
    ∃ s, r = .next s ∧ eraseDead s = t := by
  cases r with
  | next s =>
    cases h
    exact ⟨s, rfl, rfl⟩
  | fault f => cases h
  | refused f => cases h

/-- Settles O51: machines that agree but for the dead registers are equal once these are erased, and
erasing commutes with the step. -/
theorem deadRegistersDoNotInterfere : Obligations.DeadRegistersDoNotInterfere := by
  intro s1 s2 s1' hagree hstep
  have hsame : eraseResult (step s2) = .next (eraseDead s1') := by
    rw [← step_eraseDead s2, ← (agreeState_iff s1 s2).mp hagree, step_eraseDead s1, hstep]
    rfl
  obtain ⟨s2', h2, he⟩ := eraseResult_eq_next hsame
  exact ⟨s2', h2, (agreeState_iff s1' s2').mpr he.symm⟩

end Sys2Proof.Proofs

/-! SUPPORT. The records the rows emit are those of the rules (30_encoding.md rules R90, R96,
R98). -/

namespace Sys2Proof.Proofs

open Sys2Proof.Machine Sys2Proof.Safety Sys2Proof.Laws

/-- The range of `gray_temp` (43_assembler.md rule R198 (a)), whatever the free entries are. -/
theorem grayTemp_range (nib : BitVec 4) : 17 ≤ grayTemp nib ∧ grayTemp nib ≤ 31 := by
  unfold grayTemp Config.tempMin Config.tempMax
  split_ifs <;> omega

theorem legalPayload_fan (v : Byte) : legalPayload .command (v >>> 5) := by
  unfold legalPayload
  revert v
  decide

theorem legalPayload_mode (v : Byte) :
    legalPayload .command (0x80 + ((v >>> 2) &&& 3)) ∧
      legalPayload .command (0x40 + ((v >>> 2) &&& 3)) := by
  unfold legalPayload
  revert v
  decide

theorem legalPayload_temperature {nib : BitVec 4} (h : grayTemp nib ≠ 31) :
    legalPayload .temperature (BitVec.ofNat 8 (grayTemp nib)) := by
  have hr := grayTemp_range nib
  rw [legalPayload, BitVec.toNat_ofNat, Nat.mod_eq_of_lt (by omega)]
  omega

theorem legalPayload_bit (b : Bool) : legalPayload .bit (bitData b) := by
  cases b
  · exact .inl rfl
  · exact .inr rfl

/-- Every record of a list is one the rules produce. -/
def LegalRecords (as : List Annotation) : Prop := ∀ a ∈ as, legalPayload a.kind a.data

@[simp] theorem legalRecords_nil : LegalRecords [] := by simp [LegalRecords]

@[simp] theorem legalRecords_cons (a : Annotation) (as : List Annotation) :
    LegalRecords (a :: as) ↔ legalPayload a.kind a.data ∧ LegalRecords as := by
  simp [LegalRecords]

@[simp] theorem legalRecords_append (as bs : List Annotation) :
    LegalRecords (as ++ bs) ↔ LegalRecords as ∧ LegalRecords bs := by
  simp [LegalRecords, or_imp, forall_and]

theorem legalRecords_fields (d : DecoderState) (t i : Nat) (v : Byte) :
    LegalRecords (fieldRecords d t i v) := by
  unfold fieldRecords
  split_ifs
  · simp [legalPayload]
  · simp [legalPayload_fan]
  · obtain ⟨hfan, hmode⟩ := legalPayload_mode v
    by_cases ht : grayTemp ((v >>> 4).setWidth 4) = 31
    · simpa [ht] using hfan
    · simpa [ht] using ⟨legalPayload_temperature ht, hmode⟩
  · simp

theorem legalRecords_bitEffect {b : Bool} {s : State} {d : DecoderState} {as : List Annotation}
    (h : BitEffect b s d as) : LegalRecords as := by
  obtain ⟨-, -, rfl⟩ | ⟨-, -, -, rfl⟩ := h
  · simp [legalPayload_bit]
  · have hbyte : legalPayload .byte (appended s.dec.acc b) := trivial
    simp [legalPayload_bit, hbyte, legalRecords_fields]

/-- Every record a row emits is one the rules produce. -/
theorem legalRecords_rowEffect {r : Row} {s : State} {d : DecoderState} {as : List Annotation}
    (h : RowEffect r s d as) : LegalRecords as := by
  cases r with
  | tDhBit0 | tDhBit1 => exact legalRecords_bitEffect h
  | _ =>
    obtain ⟨-, rfl⟩ := h
    simp [overPulse, legalPayload]

end Sys2Proof.Proofs

/-! SUPPORT. The invariant of 10_state.md rule R43: its part about the block in assembly, which the
rows write, and its part about the configuration, which they keep. -/

namespace Sys2Proof.Proofs

open Sys2Proof.Machine Sys2Proof.Safety Sys2Proof.Laws

/-- The clauses of the invariant that speak of the FSM state, the counters, the accumulator and the
buffer. -/
structure BlockInv (d : DecoderState) : Prop where
  bitCount_le : d.bitCount ≤ 7
  byteCount_le : d.byteCount ≤ 6
  acc_lt : d.acc.toNat < 2 ^ d.bitCount
  leader_clear : d.state = .idle ∨ d.state = .leaderLow ∨ d.state = .leaderHigh →
    d.bitCount = 0 ∧ d.byteCount = 0 ∧ d.acc = 0
  sep_full : d.state = .sep → d.byteCount = 6 ∧ d.bitCount = 0
  dataHigh_open : d.state = .dataHigh →
    ¬ (d.byteCount = 6 ∧ d.bitCount = 0) ∧ d.byteCount ≤ 5
  full_no_pending : d.byteCount = 6 → d.bitCount = 0
  buf_tail : ∀ i, d.byteCount ≤ i → i < 6 → bufByte d i = some 0

/-- The clauses that speak of the configuration. -/
structure ConfigInv (d : DecoderState) : Prop where
  running_rate : d.running = true → d.rateValid = true
  calibrated : d.rateValid = true → 0 < d.rate ∧ d.th = calibrate d.rate
  uncalibrated : d.rateValid = false → d.rate = 0 ∧ d.th = Thresholds.zero

theorem coreInv_blockInv {d : DecoderState} (h : CoreInv d) : BlockInv d := { h with }

theorem coreInv_configInv {d : DecoderState} (h : CoreInv d) : ConfigInv d := { h with }

theorem configInv_of_sameConfig {d d' : DecoderState} (h : ConfigInv d) (hs : SameConfig d d') :
    ConfigInv d' where
  running_rate := by simpa only [hs.running, hs.rateValid] using h.running_rate
  calibrated := by simpa only [hs.rateValid, hs.rate, hs.th] using h.calibrated
  uncalibrated := by simpa only [hs.rateValid, hs.rate, hs.th] using h.uncalibrated

/-- No bit and no byte is held. -/
structure BlockEmpty (d : DecoderState) : Prop where
  bitCount : d.bitCount = 0
  byteCount : d.byteCount = 0
  acc : d.acc = 0
  buf : ∀ i, i < 6 → bufByte d i = some 0

theorem blockInv_of_empty {d : DecoderState} (h : BlockEmpty d) (hsep : d.state ≠ .sep)
    (hhigh : d.state ≠ .dataHigh) : BlockInv d where
  bitCount_le := by simp [h.bitCount]
  byteCount_le := by simp [h.byteCount]
  acc_lt := by simp [h.acc, h.bitCount]
  leader_clear := fun _ => ⟨h.bitCount, h.byteCount, h.acc⟩
  sep_full := fun hs => absurd hs hsep
  dataHigh_open := fun hs => absurd hs hhigh
  full_no_pending := fun _ => h.bitCount
  buf_tail := fun i _ hi => h.buf i hi

theorem blockEmpty_clearBlock (d : DecoderState) : BlockEmpty (clearBlock d) :=
  ⟨rfl, rfl, rfl, fun i hi => bufByte_empty _ i hi rfl⟩

theorem blockInv_clearBlock (d : DecoderState) : BlockInv (clearBlock d) :=
  blockInv_of_empty (blockEmpty_clearBlock d) (by simp) (by simp)

/-- Between blocks, in `IDLE`, `LEADER_LOW` and `LEADER_HIGH`, the block is empty. -/
theorem blockEmpty_of_leader {d : DecoderState} (h : BlockInv d)
    (hs : d.state = .idle ∨ d.state = .leaderLow ∨ d.state = .leaderHigh) : BlockEmpty d := by
  obtain ⟨hbit, hbyte, hacc⟩ := h.leader_clear hs
  exact ⟨hbit, hbyte, hacc, fun i hi => h.buf_tail i (by omega) hi⟩

/-- `SEP` is entered with the accumulator 0, which is why `T_SEP_OK` need not write it (10_state.md
rule R23). -/
theorem acc_of_sep {d : DecoderState} (h : BlockInv d) (hs : d.state = .sep) : d.acc = 0 := by
  have hlt := h.acc_lt
  rw [(h.sep_full hs).2] at hlt
  exact BitVec.eq_of_toNat_eq (by simpa using hlt)

/-- One more bit still fits the bits counted. -/
theorem appended_lt {acc : Byte} {n : Nat} (b : Bool) (h : acc.toNat < 2 ^ n) :
    (appended acc b).toNat < 2 ^ (n + 1) := by
  have hle : (appended acc b).toNat ≤ acc.toNat * 2 + 1 := by
    unfold appended
    cases b <;> simp <;> omega
  omega

/-- A decoded bit in `DATA_HIGH` keeps the block's invariant: it counts one more bit, or closes a
byte the buffer has place for. -/
theorem blockInv_bitEffect {b : Bool} {s : State} {d : DecoderState} {as : List Annotation}
    (h : BlockInv s.dec) (hs : s.dec.state = .dataHigh) (he : BitEffect b s d as) : BlockInv d := by
  have hbit := h.bitCount_le
  have hbyte := (h.dataHigh_open hs).2
  obtain ⟨h7, rfl, -⟩ | ⟨hlt, h7, rfl, -⟩ := he
  · exact
      { bitCount_le := by simp; omega
        byteCount_le := h.byteCount_le
        acc_lt := appended_lt b h.acc_lt
        leader_clear := by simp
        sep_full := by simp
        dataHigh_open := by simp
        full_no_pending := by simp; omega
        buf_tail := h.buf_tail }
  · exact
      { bitCount_le := by simp
        byteCount_le := hlt
        acc_lt := by simp
        leader_clear := by simp
        sep_full := by simp
        dataHigh_open := by simp
        full_no_pending := by simp
        buf_tail := fun i hi hi6 =>
          (bufByte_bufWrite_other s.dec _ i _ hlt (by simp at hi; omega)).trans
            (h.buf_tail i (by simp at hi; omega) hi6) }

/-- Every row that an edge selects keeps the block's invariant. -/
theorem blockInv_rowEffect {r : Row} {e : Edge} {s : State} {d : DecoderState}
    {as : List Annotation} (h : BlockInv s.dec) (hr : selectRow s.dec e = some r)
    (he : RowEffect r s d as) : BlockInv d := by
  cases r with
  | tDhBit0 | tDhBit1 => exact blockInv_bitEffect h (selectRow_source hr rfl) he
  | tFirst | tIdleIgnore | tDlSkip =>
    obtain ⟨rfl, -⟩ := he
    exact h
  | tIdleLeader | tLlOk =>
    obtain ⟨rfl, -⟩ := he
    have hs := selectRow_source hr rfl
    exact blockInv_of_empty { blockEmpty_of_leader h (by simp [hs]) with } (by simp) (by simp)
  | tLhOk =>
    obtain ⟨rfl, -⟩ := he
    exact blockInv_of_empty { blockEmpty_clearBlock s.dec with } (by simp) (by simp)
  | tDlSep =>
    obtain ⟨rfl, -⟩ := he
    have hfull := (pFull_iff s.dec).mp (selectRow_full hr rfl)
    exact { h with leader_clear := by simp, sep_full := fun _ => hfull, dataHigh_open := by simp }
  | tDlBit =>
    obtain ⟨rfl, -⟩ := he
    have hopen : ¬ (s.dec.byteCount = 6 ∧ s.dec.bitCount = 0) := by
      rw [← pFull_iff, selectRow_full hr rfl]
      simp
    have hbyte : s.dec.byteCount ≤ 5 := by
      have := h.byteCount_le
      have := h.full_no_pending
      omega
    exact
      { h with
        leader_clear := by simp, sep_full := by simp, dataHigh_open := fun _ => ⟨hopen, hbyte⟩ }
  | tSepOk =>
    obtain ⟨rfl, -⟩ := he
    have hacc := acc_of_sep h (selectRow_source hr rfl)
    exact blockInv_of_empty { blockEmpty_clearBlock s.dec with acc := hacc } (by simp) (by simp)
  | _ =>
    obtain ⟨rfl, -⟩ := he
    exact blockInv_clearBlock s.dec

/-- The end of an accepted edge step keeps the core's invariant where the row kept the block's: the
session goes on, and an edge has been seen. -/
theorem coreInv_edgeDone {s s' : State} {d : DecoderState} {as : List Annotation}
    (hb : BlockInv d) (hc : ConfigInv d) (hr : d.running = true) (h : edgeDone s d as = .next s') :
    CoreInv s'.dec := by
  rw [edgeDone_inj] at h
  subst h
  exact { hb, hc with stopped_clear := by simp [hr], first_idle := by simp }

theorem coreInv_clearSession {d : DecoderState} {running : Bool} (h : CoreInv d)
    (hr : running = true → d.rateValid = true) :
    CoreInv { clearSession d with running := running } :=
  { blockInv_clearBlock d, coreInv_configInv h with
    running_rate := hr
    stopped_clear := fun _ => ⟨rfl, rfl, rfl, rfl, rfl, rfl, rfl, rfl⟩
    first_idle := fun _ => rfl }

/-- The host commands keep the core's invariant. -/
theorem coreInv_commandEffect {i : Instr} {d d' : DecoderState} (h : CoreInv d)
    (he : CommandEffect i d d') : CoreInv d' := by
  obtain ⟨R, hR, -, rfl⟩ | ⟨l, -, rfl⟩ | ⟨-, -, hv, rfl⟩ | ⟨-, -, rfl⟩ := he
  · exact
      { h with
        running_rate := fun _ => rfl
        calibrated := fun _ => ⟨hR, rfl⟩
        uncalibrated := by simp }
  · exact { h with }
  · exact coreInv_clearSession h fun _ => hv
  · exact coreInv_clearSession h (by simp)

theorem legalOut_append {s s' : State} {as : List Annotation} (h : LegalOut s)
    (ha : LegalRecords as) (ho : s'.out = s.out ++ as) : LegalOut s' := by
  change LegalRecords s'.out
  rw [ho]
  exact (legalRecords_append s.out as).mpr ⟨h, ha⟩

/-- The core's invariant at reset. -/
theorem coreInv_reset : CoreInv DecoderState.reset :=
  { blockInv_clearBlock DecoderState.reset with
    running_rate := by simp [DecoderState.reset]
    stopped_clear := fun _ => ⟨rfl, rfl, rfl, rfl, rfl, rfl, rfl, rfl⟩
    first_idle := fun _ => rfl
    calibrated := by simp [DecoderState.reset]
    uncalibrated := fun _ => ⟨rfl, rfl⟩ }

theorem inv_of_reset {s : State} (hd : s.dec = DecoderState.reset) (ho : s.out = []) : Inv s :=
  ⟨hd ▸ coreInv_reset, by simp [LegalOut, ho]⟩

/-- Settles O42: a core at reset meets the invariant, and has emitted nothing. -/
theorem resetSatisfiesInvariant : Obligations.ResetSatisfiesInvariant := inv_of_reset rfl rfl

/-- A host command that answers a next state keeps the invariant. A transition row executed on its
own need not: it rests on the state in which an `EDGE` selects it. -/
theorem inv_exec_command {i : Instr} {s s' : State} (hi : ∀ r, i ≠ Row.toInstr r) (h : Inv s)
    (hx : exec i s = .next s') : Inv s' := by
  obtain ⟨hcore, hout⟩ := h
  rcases exec_effect i s s' hx with
    ⟨r, -, ha⟩ | ⟨d, hc, hd⟩ | ⟨t, l, r, d, as, -, hacc, hsel, hr, he⟩ | ⟨r, -, -, hr, -⟩
  · rw [onlyAnswered_inj] at ha
    subst ha
    exact ⟨hcore, hout⟩
  · cases hd
    exact ⟨coreInv_commandEffect hcore hc, hout⟩
  · have hk := sameConfig_rowEffect hr
    have hblock : BlockInv d :=
      blockInv_rowEffect (s := withEdge s t l) (coreInv_blockInv hcore) hsel hr
    have hrun : s.dec.running = true := by
      simp only [edgeAccepted, Bool.and_eq_true] at hacc
      exact hacc.1
    refine ⟨coreInv_edgeDone hblock (configInv_of_sameConfig (coreInv_configInv hcore) hk)
      (hk.running.trans hrun) he, legalOut_append hout (legalRecords_rowEffect hr) ?_⟩
    rw [edgeDone_inj] at he
    subst he
    rfl
  · exact absurd hr (hi r)

theorem inv_driveReset {a : Bool} {s : State} (h : Inv s) : Inv (driveReset a s) := by
  cases a with
  | true => exact inv_of_reset rfl rfl
  | false =>
    cases hr : s.resetAsserted with
    | true =>
      rw [driveReset_release s hr]
      exact inv_of_reset rfl rfl
    | false =>
      rw [driveReset_released s hr]
      exact h

/-- Settles O43, by the cases of a step: it waits, takes a change of the reset input, passes over a
command word, or runs one. -/
theorem everyStepKeepsInvariant : Obligations.EveryStepKeepsInvariant := by
  intro s s' h hstep
  rcases step_effect s s' hstep with
    ⟨-, rfl⟩ | ⟨a, rest, -, rfl⟩ | ⟨w, rest, -, -, rfl⟩ | ⟨w, rest, -, -, hx⟩
  · exact h
  · exact inv_driveReset h
  · exact h
  · exact inv_exec_command (decodeCmd_command w) (s := { s with pending := rest }) h hx

/-- Settles O11: the reset state is closed data, so each of its fields is evaluated. -/
theorem resetValues : Obligations.ResetValues := by
  unfold Obligations.ResetValues
  decide

end Sys2Proof.Proofs

/-! SUPPORT. The row of an edge from the bits of its dispatch vector: a row whose pattern applies is
the one selected (30_encoding.md rules R93, R94). -/

namespace Sys2Proof.Proofs

open Sys2Proof.Machine Sys2Proof.Safety Sys2Proof.Laws

/-- Two rows of the table differ in a bit that both look at. -/
theorem rowTable_disjoint : ∀ p ∈ rowTable, ∀ q ∈ rowTable,
    p.matchBits &&& q.mask = q.matchBits &&& p.mask → p = q := by
  decide

/-- No row asks for a bit it does not look at. -/
theorem rowTable_matchBits : ∀ p ∈ rowTable, p.matchBits &&& p.mask = p.matchBits := by
  decide

/-- A row whose pattern applies to a vector is the one decoded, wherever it stands in the table. -/
theorem decodeRow_of_applies {v : DispatchWord} {p : RowPattern} (hp : p ∈ rowTable)
    (hv : v &&& p.mask = p.matchBits) : decodeRow v = some p.row := by
  cases hf : rowTable.find? (·.applies v) with
  | none => exact absurd hv (by simpa [RowPattern.applies] using List.find?_eq_none.mp hf p hp)
  | some q =>
    have hq : v &&& q.mask = q.matchBits := by
      simpa [RowPattern.applies] using List.find?_some hf
    have hpq : p = q := rowTable_disjoint p hp q (List.mem_of_find?_eq_some hf) (by
      rw [← hv, ← hq, BitVec.and_assoc, BitVec.and_assoc, BitVec.and_comm p.mask])
    rw [decodeRow, hf, hpq, Option.map_some]

/-- The bits of the dispatch vector of an edge, `V[0]` first (30_encoding.md rule R93). -/
def vectorBits (d : DecoderState) (e : Edge) : Vector Bool 14 :=
  let w := pulseWidth d e
  let code := d.state.code
  #v[pFull d, pSep d.th w, pB1 d.th w, pB0 d.th w, pBl d.th w, pLh d.th w, pLl d.th w,
    pFall d e, pRise d e, pIdle d.th w, code.getLsbD 0, code.getLsbD 1, code.getLsbD 2, d.prevValid]

theorem getLsbD_dispatchVector (d : DecoderState) (e : Edge) (i : Fin 14) :
    (dispatchVector d e).getLsbD i = (vectorBits d e)[i] := by
  fin_cases i <;>
    simp [dispatchVector, vectorBits, getLsbD_append_bit, getLsbD_append_code,
      -BitVec.getLsbD_eq_getElem]

/-- An edge selects a row when its vector has the bits the row looks at. -/
theorem selectRow_of_bits {d : DecoderState} {e : Edge} (p : RowPattern) (hp : p ∈ rowTable)
    (h : ∀ i : Fin 14, p.mask.getLsbD i = true → (vectorBits d e)[i] = p.matchBits.getLsbD i) :
    selectRow d e = some p.row := by
  apply decodeRow_of_applies hp
  apply BitVec.eq_of_getLsbD_eq
  intro i hi
  rw [← rowTable_matchBits p hp, BitVec.getLsbD_and, BitVec.getLsbD_and]
  cases hm : p.mask.getLsbD i with
  | false => simp
  | true => rw [getLsbD_dispatchVector d e ⟨i, hi⟩, h ⟨i, hi⟩ hm]

theorem selectRow_tDlBit {d : DecoderState} {e : Edge} (hv : d.prevValid = true)
    (hs : d.state = .dataLow) (hi : pIdle d.th (pulseWidth d e) = false)
    (hb : pBl d.th (pulseWidth d e) = true) (hf : pFull d = false) :
    selectRow d e = some .tDlBit :=
  selectRow_of_bits ⟨.tDlBit, 0x2C10, 0x3E11⟩ (by decide) (by
    simp [Fin.forall_fin_succ, vectorBits, hv, hs, hi, hb, hf, FsmState.code])

theorem selectRow_tDhBit0 {d : DecoderState} {e : Edge} (hv : d.prevValid = true)
    (hs : d.state = .dataHigh) (hi : pIdle d.th (pulseWidth d e) = false)
    (hb : pB0 d.th (pulseWidth d e) = true) : selectRow d e = some .tDhBit0 :=
  selectRow_of_bits ⟨.tDhBit0, 0x3008, 0x3E08⟩ (by decide) (by
    simp [Fin.forall_fin_succ, vectorBits, hv, hs, hi, hb, FsmState.code])

theorem selectRow_tDhBit1 {d : DecoderState} {e : Edge} (hv : d.prevValid = true)
    (hs : d.state = .dataHigh) (hi : pIdle d.th (pulseWidth d e) = false)
    (hb0 : pB0 d.th (pulseWidth d e) = false) (hb1 : pB1 d.th (pulseWidth d e) = true) :
    selectRow d e = some .tDhBit1 :=
  selectRow_of_bits ⟨.tDhBit1, 0x3004, 0x3E0C⟩ (by decide) (by
    simp [Fin.forall_fin_succ, vectorBits, hv, hs, hi, hb0, hb1, FsmState.code])

end Sys2Proof.Proofs

/-! SUPPORT. The windows of the line code at a calibrated rate (40_calibrator.md rules R112,
R113). -/

namespace Sys2Proof.Proofs

open Sys2Proof.Machine Sys2Proof.Safety Sys2Proof.Laws

/-- A pulse in the window of a nominal width of at most half `US_IDLE` is not over-long. -/
theorem pIdle_of_inWindow {R us w : Nat} (hus : 2 * us ≤ Config.usIdle)
    (h : InWindow w (threshold R us)) : pIdle (calibrate R) w = false := by
  have hmul : R * us * 2 ≤ R * Config.usIdle := by
    rw [Nat.mul_assoc, Nat.mul_comm us]
    exact Nat.mul_le_mul_left R hus
  obtain ⟨-, hle⟩ := h
  rw [← Bool.not_eq_true, pIdle_iff]
  simp only [calibrate, threshold] at hle ⊢
  omega

/-- The window of a 1 bit's high pulse lies above that of a 0 bit's, at every rate. -/
theorem not_inWindow_bit0High {R w : Nat} (h : InWindow w (calibrate R).bit1High) :
    ¬ InWindow w (calibrate R).bit0High := by
  simp only [InWindow, calibrate, threshold, Config.usBit1High, Config.usBit0High] at h ⊢
  omega

end Sys2Proof.Proofs

/-! SUPPORT. A bit symbol and a byte of them in `DATA_LOW`: what the two edges of a symbol do, and
by induction what the symbols of a byte do (20_memory.md rules R64, R65; 42_fsm.md rules R163, R165,
R166). -/

namespace Sys2Proof.Proofs

open Sys2Proof.Machine Sys2Proof.Safety Sys2Proof.Laws

/-- The core receives data: a session in `DATA_LOW` at a calibrated rate. -/
structure InData (d : DecoderState) : Prop where
  state : d.state = .dataLow
  running : d.running = true
  prevValid : d.prevValid = true
  calibrated : ∃ R, d.th = calibrate R

theorem inData_of_coreInv {d : DecoderState} (h : CoreInv d) (hr : d.running = true)
    (hs : d.state = .dataLow) : InData d where
  state := hs
  running := hr
  prevValid := by
    by_contra hv
    simpa [hs] using h.first_idle (by simpa using hv)
  calibrated := ⟨d.rate, (h.calibrated (h.running_rate hr)).2⟩

/-- Where the byte begins that the next bit belongs to (10_state.md rule R28). -/
def nextByteStart (d : DecoderState) : Nat := if d.bitCount = 0 then d.prevTs else d.byteStart

/-- The machine between the two edges of a bit symbol: `T_DL_BIT` has been performed. -/
def inSymbol (s : State) (b : BitSymbol) : State :=
  { s with
    dec := { s.dec with
      state := .dataHigh, bitStart := s.dec.prevTs, byteStart := nextByteStart s.dec
      prevValid := true, prevTs := s.dec.prevTs + b.low, prevLevel := .high }
    edge := { t := s.dec.prevTs + b.low, lvl := .high }
    responses := s.responses ++ [.ok] }

/-- The machine in which the second edge of a bit symbol decodes the bit. -/
def atBit (s : State) (b : BitSymbol) : State :=
  withEdge (inSymbol s b) (s.dec.prevTs + b.low + b.high) .low

section AtBit
variable (s : State) (b : BitSymbol)

@[simp] theorem atBit_edge :
    (atBit s b).edge = { t := s.dec.prevTs + b.low + b.high, lvl := .low } := rfl
@[simp] theorem atBit_out : (atBit s b).out = s.out := rfl
@[simp] theorem atBit_acc : (atBit s b).dec.acc = s.dec.acc := rfl
@[simp] theorem atBit_byteCount : (atBit s b).dec.byteCount = s.dec.byteCount := rfl
@[simp] theorem atBit_bitStart : (atBit s b).dec.bitStart = s.dec.prevTs := rfl
@[simp] theorem atBit_byteStart : (atBit s b).dec.byteStart = nextByteStart s.dec := rfl

end AtBit

/-- An edge that ends a measured pulse runs the row it selects. -/
theorem exec_edge_of_selectRow {s : State} {t : Nat} {l : Level} {r : Row} (hm : Measured s.dec t)
    (hr : selectRow s.dec { t := t, lvl := l } = some r) :
    exec (.edge t l) s = runRow r (withEdge s t l) :=
  execEdge_accepted t l s r (edgeAccepted_of_measured s.dec t l hm) hr

/-- The rise of a bit symbol latches its start. -/
theorem exec_symbol_low {s : State} {b : BitSymbol} (h : InData s.dec) (h6 : s.dec.byteCount < 6)
    (hb : b.fits s.dec.th) :
    exec (.edge (s.dec.prevTs + b.low) .high) s = .next (inSymbol s b) := by
  obtain ⟨R, hth⟩ := h.calibrated
  obtain ⟨hlow, -, hwin, -⟩ := hb
  have hw : pulseWidth s.dec { t := s.dec.prevTs + b.low, lvl := .high } = b.low :=
    Nat.add_sub_cancel_left _ _
  have hsel : selectRow s.dec { t := s.dec.prevTs + b.low, lvl := .high } = some .tDlBit := by
    apply selectRow_tDlBit h.prevValid h.state
    · rw [hw, hth]
      rw [hth] at hwin
      exact pIdle_of_inWindow (by decide) hwin
    · rw [hw]
      exact (near_iff _ _).mpr hwin
    · rw [← Bool.not_eq_true, pFull_iff]
      omega
  rw [exec_edge_of_selectRow ⟨h.running, h.prevValid, by omega⟩ hsel]
  rfl

/-- The row that decodes a bit of the value. -/
def bitRow (b : Bool) : Row := if b then .tDhBit1 else .tDhBit0

theorem runRow_bitRow (b : Bool) (s : State) : runRow (bitRow b) s = decodeBit b s := by
  cases b <;> rfl

/-- The fall of a bit symbol decodes its bit: `T_DH_BIT0` looks at its window first, and at no rate
does that window take the high pulse of a 1. -/
theorem exec_symbol_high {s : State} {b : BitSymbol} (h : InData s.dec) (hb : b.fits s.dec.th) :
    exec (.edge (s.dec.prevTs + b.low + b.high) .low) (inSymbol s b) =
      decodeBit b.value (atBit s b) := by
  obtain ⟨R, hth⟩ := h.calibrated
  obtain ⟨-, hhigh, -, hwin⟩ := hb
  have hw : pulseWidth (inSymbol s b).dec
      { t := s.dec.prevTs + b.low + b.high, lvl := .low } = b.high :=
    Nat.add_sub_cancel_left _ _
  have hth' : (inSymbol s b).dec.th = calibrate R := hth
  rw [hth] at hwin
  have hsel : selectRow (inSymbol s b).dec
      { t := s.dec.prevTs + b.low + b.high, lvl := .low } = some (bitRow b.value) := by
    cases hv : b.value with
    | false =>
      rw [hv] at hwin
      apply selectRow_tDhBit0 rfl rfl <;> rw [hw, hth']
      · exact pIdle_of_inWindow (by decide) hwin
      · exact (near_iff _ _).mpr hwin
    | true =>
      rw [hv] at hwin
      apply selectRow_tDhBit1 rfl rfl <;> rw [hw, hth']
      · exact pIdle_of_inWindow (by decide) hwin
      · rw [← Bool.not_eq_true]
        exact fun h0 => not_inWindow_bit0High hwin ((near_iff _ _).mp h0)
      · exact (near_iff _ _).mpr hwin
  have hm : Measured (inSymbol s b).dec (s.dec.prevTs + b.low + b.high) :=
    ⟨h.running, rfl, Nat.lt_add_of_pos_right hhigh⟩
  rw [exec_edge_of_selectRow hm hsel, runRow_bitRow]
  rfl

/-- The edges of a symbol and of those after it. -/
theorem execAll_symbolEdges_cons {s : State} {b : BitSymbol} (bs : List BitSymbol)
    (h : InData s.dec) (h6 : s.dec.byteCount < 6) (hb : b.fits s.dec.th) :
    execAll (symbolEdges s.dec.prevTs (b :: bs)) s =
      andThen (decodeBit b.value (atBit s b))
        (execAll (symbolEdges (s.dec.prevTs + b.low + b.high) bs)) := by
  rw [symbolEdges, execAll, exec_symbol_low h h6 hb, andThen_next, execAll,
    exec_symbol_high h hb]

/-- Commands one after the other run in two parts. -/
theorem execAll_append (is js : List Instr) (s : State) :
    execAll (is ++ js) s = andThen (execAll is s) (execAll js) := by
  induction is generalizing s with
  | nil => rfl
  | cons i is ih =>
    rw [List.cons_append, execAll, execAll]
    cases exec i s with
    | next s1 => exact ih s1
    | fault f => rfl
    | refused r => rfl

/-- The bit records of symbols whose first low pulse begins at `t` (42_fsm.md rules R165, R166). -/
def symbolRecords (t : Nat) : List BitSymbol → List Annotation
  | [] => []
  | b :: bs =>
    { kind := .bit, data := bitData b.value, start := t
      stop := ((t + b.low + b.high : Nat) : Int) } :: symbolRecords (t + b.low + b.high) bs

/-- `s'` is `s` after the symbols `bs` of a byte they do not complete. -/
structure BitsReceived (s : State) (bs : List BitSymbol) (s' : State) : Prop where
  inData : InData s'.dec
  th : s'.dec.th = s.dec.th
  prevTs : s'.dec.prevTs = s.dec.prevTs + duration bs
  bitCount : s'.dec.bitCount = s.dec.bitCount + bs.length
  byteCount : s'.dec.byteCount = s.dec.byteCount
  buf : s'.dec.buf = s.dec.buf
  acc : s'.dec.acc = (bs.map (·.value)).foldl appended s.dec.acc
  byteStart : nextByteStart s'.dec = nextByteStart s.dec
  out : s'.out = s.out ++ symbolRecords s.dec.prevTs bs

theorem bitsReceived_nil {s : State} (h : InData s.dec) : BitsReceived s [] s where
  inData := h
  th := rfl
  prevTs := rfl
  bitCount := rfl
  byteCount := rfl
  buf := rfl
  acc := rfl
  byteStart := rfl
  out := by simp [symbolRecords]

theorem duration_cons (b : BitSymbol) (bs : List BitSymbol) :
    duration (b :: bs) = b.low + b.high + duration bs := by
  simp [duration]

theorem symbolEdges_append (t : Nat) (bs cs : List BitSymbol) :
    symbolEdges t (bs ++ cs) = symbolEdges t bs ++ symbolEdges (t + duration bs) cs := by
  induction bs generalizing t with
  | nil => rfl
  | cons b bs ih =>
    rw [List.cons_append, symbolEdges, ih, symbolEdges, duration_cons]
    simp [Nat.add_assoc]

theorem symbolRecords_append (t : Nat) (bs cs : List BitSymbol) :
    symbolRecords t (bs ++ cs) = symbolRecords t bs ++ symbolRecords (t + duration bs) cs := by
  induction bs generalizing t with
  | nil => rfl
  | cons b bs ih =>
    rw [List.cons_append, symbolRecords, ih, symbolRecords, duration_cons]
    simp [Nat.add_assoc]

theorem bitsReceived_append {s s1 s2 : State} {bs cs : List BitSymbol} (h : BitsReceived s bs s1)
    (h' : BitsReceived s1 cs s2) : BitsReceived s (bs ++ cs) s2 where
  inData := h'.inData
  th := h'.th.trans h.th
  prevTs := by rw [h'.prevTs, h.prevTs]; simp [duration, Nat.add_assoc]
  bitCount := by rw [h'.bitCount, h.bitCount, List.length_append, Nat.add_assoc]
  byteCount := h'.byteCount.trans h.byteCount
  buf := h'.buf.trans h.buf
  acc := by rw [h'.acc, h.acc, List.map_append, List.foldl_append]
  byteStart := h'.byteStart.trans h.byteStart
  out := by rw [h'.out, h.out, h.prevTs, symbolRecords_append, List.append_assoc]

/-- A symbol whose bit is not the eighth. -/
theorem decodeBit_atBit_open {s : State} {b : BitSymbol} (h : InData s.dec)
    (h7 : s.dec.bitCount ≠ 7) :
    ∃ s', decodeBit b.value (atBit s b) = .next s' ∧ BitsReceived s [b] s' := by
  refine ⟨_, decodeBit_open b.value (atBit s b) h7, ?_⟩
  exact
    { inData := ⟨rfl, h.running, rfl, h.calibrated⟩
      th := rfl
      prevTs := by simp [duration, atBit, Nat.add_assoc]
      bitCount := rfl
      byteCount := rfl
      buf := rfl
      acc := rfl
      byteStart := by simp [nextByteStart, atBit, inSymbol]
      out := rfl }

/-- Symbols of a byte that they do not complete, by induction on them. -/
theorem execAll_openSymbols (bs : List BitSymbol) {s : State} (h : InData s.dec)
    (h6 : s.dec.byteCount < 6) (hlen : s.dec.bitCount + bs.length ≤ 7)
    (hfit : ∀ b ∈ bs, b.fits s.dec.th) :
    ∃ s', execAll (symbolEdges s.dec.prevTs bs) s = .next s' ∧ BitsReceived s bs s' := by
  induction bs generalizing s with
  | nil => exact ⟨s, rfl, bitsReceived_nil h⟩
  | cons b bs ih =>
    obtain ⟨hb, hbs⟩ := List.forall_mem_cons.mp hfit
    rw [List.length_cons] at hlen
    obtain ⟨s1, hx1, hr1⟩ := decodeBit_atBit_open (b := b) h (by omega)
    have hcount : s1.dec.bitCount = s.dec.bitCount + 1 := hr1.bitCount
    have hts : s1.dec.prevTs = s.dec.prevTs + b.low + b.high := by
      rw [hr1.prevTs]; simp [duration, Nat.add_assoc]
    obtain ⟨s2, hx2, hr2⟩ := ih hr1.inData (by rwa [hr1.byteCount]) (by omega) (by rwa [hr1.th])
    refine ⟨s2, ?_, bitsReceived_append hr1 hr2⟩
    rw [execAll_symbolEdges_cons bs h h6 hb, hx1, andThen_next, ← hts, hx2]

/-! ### The whole byte -/

/-- The byte of a list of symbols, most significant bit first (20_memory.md rule R64). -/
def symbolsByte (bs : List BitSymbol) : Byte := BitVec.ofNat 8 (msbValue (bs.map (·.value)))

/-- Appending bits to the accumulator is, modulo 2^8, appending them to a number. -/
theorem foldl_appended_ofNat (vs : List Bool) (n : Nat) :
    vs.foldl appended (BitVec.ofNat 8 n) =
      BitVec.ofNat 8 (vs.foldl (fun n b => 2 * n + b.toNat) n) := by
  induction vs generalizing n with
  | nil => rfl
  | cons v vs ih =>
    have hv : appended (BitVec.ofNat 8 n) v = BitVec.ofNat 8 (2 * n + v.toNat) := by
      cases v <;> simp [appended, BitVec.ofNat_add, BitVec.ofNat_mul, BitVec.mul_comm]
    rw [List.foldl_cons, hv, ih, List.foldl_cons]

/-- Bits appended to an empty accumulator are their value, most significant first. -/
theorem foldl_appended_zero (vs : List Bool) :
    vs.foldl appended 0 = BitVec.ofNat 8 (msbValue vs) :=
  foldl_appended_ofNat vs 0

/-- The field records depend on the thresholds and the start of the byte only. -/
theorem fieldRecords_congr {d d' : DecoderState} (hth : d.th = d'.th)
    (hs : d.byteStart = d'.byteStart) (t i : Nat) (v : Byte) :
    fieldRecords d t i v = fieldRecords d' t i v := by
  simp only [fieldRecords, hth, hs]

/-- What the eight symbols of a byte emit: the bit records, the byte record over all of them, and
the field records of the byte's index (43_assembler.md rules R191, R192). -/
def byteRecords (d : DecoderState) (bs : List BitSymbol) : List Annotation :=
  symbolRecords d.prevTs bs ++
    { kind := .byte, data := symbolsByte bs, start := d.prevTs
      stop := ((d.prevTs + duration bs : Nat) : Int) } ::
    fieldRecords { d with byteStart := d.prevTs } (d.prevTs + duration bs) d.byteCount
      (symbolsByte bs)

/-- `s'` is `s`, at a byte boundary, after the eight symbols `bs`. -/
structure ByteReceived (s : State) (bs : List BitSymbol) (s' : State) : Prop where
  inData : InData s'.dec
  th : s'.dec.th = s.dec.th
  prevTs : s'.dec.prevTs = s.dec.prevTs + duration bs
  bitCount : s'.dec.bitCount = 0
  acc : s'.dec.acc = 0
  byteCount : s'.dec.byteCount = s.dec.byteCount + 1
  stored : bufByte s'.dec s.dec.byteCount = some (symbolsByte bs)
  others : ∀ j, j ≠ s.dec.byteCount → bufByte s'.dec j = bufByte s.dec j
  out : s'.out = s.out ++ byteRecords s.dec bs

/-- The eighth symbol closes the byte. -/
theorem decodeBit_atBit_close {s s1 : State} {bs : List BitSymbol} {b : BitSymbol}
    (h6 : s.dec.byteCount < 6) (h0 : s.dec.bitCount = 0) (hacc : s.dec.acc = 0)
    (h : BitsReceived s bs s1) (hlen : bs.length = 7) :
    ∃ s', decodeBit b.value (atBit s1 b) = .next s' ∧ ByteReceived s (bs ++ [b]) s' := by
  have h7 : s1.dec.bitCount = 7 := by rw [h.bitCount, h0, hlen]
  have h6' : s1.dec.byteCount < 6 := by rwa [h.byteCount]
  have hbyte : appended s1.dec.acc b.value = symbolsByte (bs ++ [b]) := by
    rw [h.acc, hacc, symbolsByte, ← foldl_appended_zero, List.map_append, List.foldl_append]
    rfl
  have hstart : nextByteStart s1.dec = s.dec.prevTs := by
    rw [h.byteStart, nextByteStart, if_pos h0]
  have hts : s1.dec.prevTs + b.low + b.high = s.dec.prevTs + duration (bs ++ [b]) := by
    rw [h.prevTs]; simp [duration, Nat.add_assoc]
  refine ⟨_, decodeBit_close b.value (atBit s1 b) h7 h6', ?_⟩
  exact
    { inData := ⟨rfl, h.inData.running, rfl, h.inData.calibrated⟩
      th := h.th
      prevTs := hts
      bitCount := rfl
      acc := rfl
      byteCount := congrArg (· + 1) h.byteCount
      stored := by
        rw [← h.byteCount, ← hbyte]
        exact bufByte_bufWrite_same s1.dec _ _ h6'
      others := fun j hj =>
        (bufByte_bufWrite_other s1.dec _ j _ h6' (h.byteCount ▸ hj)).trans
          (by rw [bufByte, h.buf, bufByte])
      out := by
        have hfields := fieldRecords_congr (d := (atBit s1 b).dec)
          (d' := { s.dec with byteStart := s.dec.prevTs }) h.th hstart
        simp [byteRecords, symbolRecords_append, symbolRecords, hfields, hbyte, hstart, hts,
          h.byteCount, h.out, ← h.prevTs] }

/-- Eight symbols received at a byte boundary, with a byte of the buffer left, are one byte. -/
theorem execAll_eightSymbols {s : State} {bs : List BitSymbol} (h : InData s.dec)
    (h6 : s.dec.byteCount < 6) (h0 : s.dec.bitCount = 0) (hacc : s.dec.acc = 0)
    (hlen : bs.length = 8) (hfit : ∀ b ∈ bs, b.fits s.dec.th) :
    ∃ s', execAll (symbolEdges s.dec.prevTs bs) s = .next s' ∧ ByteReceived s bs s' := by
  obtain ⟨init, b, rfl⟩ : ∃ init b, bs = init ++ [b] :=
    (List.eq_nil_or_concat' bs).resolve_left (by rintro rfl; cases hlen)
  rw [List.length_append, List.length_singleton] at hlen
  rw [List.forall_mem_append, List.forall_mem_singleton] at hfit
  obtain ⟨hinit, hb⟩ := hfit
  obtain ⟨s1, hx1, hr1⟩ := execAll_openSymbols init h h6 (by omega) hinit
  obtain ⟨s2, hx2, hr2⟩ := decodeBit_atBit_close (b := b) h6 h0 hacc hr1 (by omega)
  refine ⟨s2, ?_, hr2⟩
  rw [symbolEdges_append, execAll_append, hx1, andThen_next, ← hr1.prevTs,
    execAll_symbolEdges_cons [] hr1.inData (by rwa [hr1.byteCount]) (by rwa [hr1.th]), hx2]
  rfl

/-! ### The records by kind -/

theorem ofKind_append (k : AnnKind) (as bs : List Annotation) :
    ofKind k (as ++ bs) = ofKind k as ++ ofKind k bs :=
  List.filter_append as bs

theorem ofKind_cons (k : AnnKind) (a : Annotation) (as : List Annotation) :
    ofKind k (a :: as) = if a.kind = k then a :: ofKind k as else ofKind k as := by
  simp [ofKind, List.filter_cons]

/-- Symbols emit bit records only. -/
theorem ofKind_symbolRecords {k : AnnKind} (hk : k ≠ .bit) (t : Nat) (bs : List BitSymbol) :
    ofKind k (symbolRecords t bs) = [] := by
  induction bs generalizing t with
  | nil => rfl
  | cons b bs ih => simpa [ofKind, symbolRecords, hk.symm] using ih _

/-- The field records are of the kinds `address`, `command` and `temperature`. -/
theorem ofKind_fieldRecords {k : AnnKind} (ha : k ≠ .address) (hc : k ≠ .command)
    (ht : k ≠ .temperature) (d : DecoderState) (t i : Nat) (v : Byte) :
    ofKind k (fieldRecords d t i v) = [] := by
  unfold fieldRecords
  split_ifs <;> simp [ofKind, ha.symm, hc.symm, ht.symm]

/-- Settles O52: seven symbols that leave the byte open, and an eighth that closes it. -/
theorem eightSymbolsAreOneByte : Obligations.EightSymbolsAreOneByte := by
  intro s bs hinv hrun hstate h0 h6 hlen hfit
  obtain ⟨hcore, -⟩ := hinv
  have hacc : s.dec.acc = 0 := by
    have hlt := hcore.acc_lt
    rw [h0] at hlt
    exact BitVec.eq_of_toNat_eq (by simpa using hlt)
  obtain ⟨s', hx, hr⟩ :=
    execAll_eightSymbols (inData_of_coreInv hcore hrun hstate) h6 h0 hacc hlen hfit
  refine ⟨s', hx, hr.inData.state, hr.bitCount, hr.acc, hr.byteCount, hr.prevTs, hr.stored,
    hr.others, ?_, ?_⟩
  all_goals
    simp [hr.out, byteRecords, symbolsByte, ofKind_append, ofKind_cons, ofKind_symbolRecords,
      ofKind_fieldRecords]

end Sys2Proof.Proofs

/-! SUPPORT. The block buffer and the annotation stream as the core's memory (20_memory.md rules
R61, R69): which instructions leave the buffer alone, and how many records one adds. -/

namespace Sys2Proof.Proofs

open Sys2Proof.Machine Sys2Proof.Safety Sys2Proof.Laws

/-- The buffer reads as before after an instruction whose next state has the same buffer. -/
theorem bufByte_of_exec {i : Instr} {s s' : State}
    (hx : ∃ t, exec i s = .next t ∧ t.dec.buf = s.dec.buf) (h : exec i s = .next s') (j : Nat) :
    bufByte s'.dec j = bufByte s.dec j := by
  obtain ⟨t, ht, hb⟩ := hx
  rw [ht] at h
  cases h
  rw [bufByte, hb, bufByte]

theorem exec_bit (b : Bool) (s : State) :
    exec (if b then .tDhBit1 else .tDhBit0) s = decodeBit b s := by
  cases b <;> rfl

/-- A decoded bit leaves every byte of the buffer but the one it closes. -/
theorem bufByte_bitEffect {b : Bool} {s : State} {d : DecoderState} {as : List Annotation}
    (h : BitEffect b s d as) (j : Nat) :
    (s.dec.bitCount ≠ 7 ∨ j ≠ s.dec.byteCount → bufByte d j = bufByte s.dec j) ∧
    (s.dec.bitCount = 7 → j = s.dec.byteCount → bufByte d j = some (appended s.dec.acc b)) := by
  obtain ⟨h7, rfl, -⟩ | ⟨hlt, h7, rfl, -⟩ := h
  · exact ⟨fun _ => rfl, fun h => absurd h h7⟩
  · refine ⟨fun hj => ?_, fun _ hj => ?_⟩
    · exact bufByte_bufWrite_other s.dec _ j _ hlt (hj.resolve_left (absurd h7))
    · rw [hj]
      exact bufByte_bufWrite_same s.dec _ _ hlt

/-- Settles O37, by the two effects of a decoded bit; the other instructions named have a next state
with the same buffer. -/
theorem bufferFrame : Obligations.BufferFrame := by
  refine ⟨fun s s' b j h => ?_, fun s s' j i hi h => ?_, fun s s' R j h => ?_, bufByte_isSome⟩
  · rw [exec_bit] at h
    obtain ⟨d, as, hd, he⟩ := decodeBit_effect b s s' h
    rw [edgeDone_inj] at hd
    subst hd
    exact bufByte_bitEffect he j
  · simp only [List.mem_cons, List.not_mem_nil, or_false] at hi
    rcases hi with rfl | rfl | rfl | rfl | rfl | rfl | rfl | rfl | rfl | rfl | rfl | rfl
    all_goals exact bufByte_of_exec ⟨_, by rfl, by rfl⟩ h j
  · cases R with
    | zero => exact bufByte_of_exec ⟨_, by rfl, by rfl⟩ h j
    | succ n => exact bufByte_of_exec ⟨_, by rfl, by rfl⟩ h j

/-- A finalized byte has at most two field records (43_assembler.md rule R192). -/
theorem length_fieldRecords_le (d : DecoderState) (t i : Nat) (v : Byte) :
    (fieldRecords d t i v).length ≤ 2 := by
  unfold fieldRecords
  dsimp only
  split_ifs <;> simp

/-- A row emits at most four records: those of a decoded bit, its byte and the byte's fields
(43_assembler.md rule R200). -/
theorem length_rowEffect_le {r : Row} {s : State} {d : DecoderState} {as : List Annotation}
    (h : RowEffect r s d as) : as.length ≤ 4 := by
  cases r with
  | tDhBit0 | tDhBit1 =>
    obtain ⟨-, -, rfl⟩ | ⟨-, -, -, rfl⟩ := h
    · simp
    · rw [List.length_append]
      exact Nat.add_le_add_left (length_fieldRecords_le _ _ _ _) 2
  | _ =>
    obtain ⟨-, rfl⟩ := h
    simp

/-- An instruction that answers a next state adds at most four records to the stream, and withdraws
none. -/
theorem exec_appends {i : Instr} {s s' : State} (h : exec i s = .next s') :
    ∃ new, s'.out = s.out ++ new ∧ new.length ≤ 4 := by
  rcases exec_effect i s s' h with
    ⟨r, -, ha⟩ | ⟨d, -, hd⟩ | ⟨t, l, r, d, as, -, -, -, hr, he⟩ | ⟨r, d, as, -, hr, he⟩
  · rw [onlyAnswered_inj] at ha
    subst ha
    exact ⟨[], by simp⟩
  · cases hd
    exact ⟨[], by simp⟩
  all_goals
    rw [edgeDone_inj] at he
    subst he
    exact ⟨as, rfl, length_rowEffect_le hr⟩

/-- Settles O46: the command is executed, or it is lost under reset and adds nothing. -/
theorem commandsAppendAtMostFour : Obligations.CommandsAppendAtMostFour := by
  intro s s' w rest hp h
  rw [step_command s w rest hp] at h
  split at h
  · cases h
    exact ⟨[], by simp⟩
  · exact exec_appends (s := { s with pending := rest }) h

end Sys2Proof.Proofs

/-! SUPPORT. A pending command word and the instruction it stands for (20_memory.md rule R68;
30_encoding.md rules R85, R86). -/

namespace Sys2Proof.Proofs

open Sys2Proof.Machine Sys2Proof.Laws

/-- The word of a well-formed command decodes to it (30_encoding.md rules R85, R86). -/
theorem decodeCmd_of_encode {i : Instr} {w : CmdWord} (hi : i.wf = true)
    (h : encode i = .command w) : decodeCmd w = i := by
  cases i with
  | setRate n | edge n =>
    cases h
    simpa [decodeCmd, Instr.wf, argFits] using hi
  | setPol | start | endInput | reserved000 | reserved110 | reserved111 =>
    cases h
    simp [decodeCmd]
  | _ => cases h

/-- Settles O8, by what a step does with a command word and the decoding of an encoded command. -/
theorem stepRunsDecodedCommand : Obligations.StepRunsDecodedCommand := by
  have hrun : ∀ (s : State) (w : CmdWord) (rest : List HostInput), s.resetAsserted = false →
      s.pending = .command w :: rest →
      step s = exec (decodeCmd w) { s with pending := rest } := by
    intro s w rest hr hp
    rw [step_command s w rest hp, hr, if_neg Bool.false_ne_true]
  refine ⟨hrun, fun s i w rest hi he hr hp => ?_, fun s w rest hr hp => ?_⟩
  · rw [hrun s w rest hr hp, decodeCmd_of_encode hi he]
  · rw [step_command s w rest hp, if_pos hr]

end Sys2Proof.Proofs

/-! SUPPORT. The accumulator and the byte it closes (20_memory.md rules R61, R64). -/

namespace Sys2Proof.Proofs

open Sys2Proof.Machine Sys2Proof.Safety Sys2Proof.Laws

/-- Settles O34: both rows are the decoded bit, which has no byte of the buffer left to close. -/
theorem seventhByteFaults : Obligations.SeventhByteFaults :=
  fun s h7 h6 => ⟨decodeBit_fault false s h7 h6, decodeBit_fault true s h7 h6⟩

/-- Bits received after a number `n`, most significant first, stay below the next power. -/
theorem foldl_msb_lt (vs : List Bool) (n : Nat) :
    vs.foldl (fun n b => 2 * n + b.toNat) n < 2 ^ vs.length * (n + 1) := by
  induction vs generalizing n with
  | nil => simp
  | cons v vs ih =>
    have hv : 2 * n + v.toNat + 1 ≤ 2 * (n + 1) := by have := v.toNat_le; omega
    calc
      _ < 2 ^ vs.length * (2 * n + v.toNat + 1) := ih _
      _ ≤ 2 ^ vs.length * (2 * (n + 1)) := Nat.mul_le_mul_left _ hv
      _ = 2 ^ (v :: vs).length * (n + 1) := by rw [List.length_cons, pow_succ, mul_assoc]

theorem msbValue_lt (vs : List Bool) : msbValue vs < 2 ^ vs.length := by
  simpa [msbValue] using foldl_msb_lt vs 0

/-- Settles O38: the accumulator holds the bits' value modulo 2^8, and eight bits are less. -/
theorem bitsAssembleMsbFirst : Obligations.BitsAssembleMsbFirst := by
  intro b0 b1 b2 b3 b4 b5 b6 b7
  have hshift : shiftIn = appended := funext fun acc => funext fun b => shiftIn_eq acc b
  have hvalue : msbValue [b0, b1, b2, b3, b4, b5, b6, b7] =
      b0.toNat * 2 ^ 7 + b1.toNat * 2 ^ 6 + b2.toNat * 2 ^ 5 + b3.toNat * 2 ^ 4 +
        b4.toNat * 2 ^ 3 + b5.toNat * 2 ^ 2 + b6.toNat * 2 + b7.toNat := by
    simp only [msbValue, List.foldl_cons, List.foldl_nil]
    ring
  have hlt : msbValue [b0, b1, b2, b3, b4, b5, b6, b7] < 2 ^ 8 := msbValue_lt _
  rw [hshift, foldl_appended_zero, BitVec.toNat_ofNat, Nat.mod_eq_of_lt hlt, hvalue]

end Sys2Proof.Proofs

/-! SUPPORT. The words of the core's ports: what a command word and a dispatch vector decode to
(30_encoding.md rules R85, R86, R93, R94). -/

namespace Sys2Proof.Proofs

open Sys2Proof.Machine Sys2Proof.Safety Sys2Proof.Laws

/-- A host command is encoded as a command word, a transition row as its match word. -/
theorem encode_cases (i : Instr) :
    (∃ w, encode i = .command w) ∨
    ∃ p ∈ rowTable, encode i = .dispatch p.matchBits ∧ p.row.toInstr = i := by
  cases i with
  | setRate | setPol | start | edge | endInput | reserved000 | reserved110 | reserved111 =>
    exact .inl ⟨_, rfl⟩
  | _ => exact .inr (by decide)

theorem decode_dispatch_of_decodeRow {v : DispatchWord} {r : Row} (h : decodeRow v = some r) :
    decode (.dispatch v) = .ok r.toInstr := by
  rw [decode, h]

/-- Settles O2: a command by the fields of its word, a row by the table. -/
theorem decodeOfEncodeIsIdentity : Obligations.DecodeOfEncodeIsIdentity := by
  intro i hi
  obtain ⟨w, hw⟩ | ⟨p, hp, hv, hrow⟩ := encode_cases i
  · rw [hw, decode, decodeCmd_of_encode hi hw]
  · rw [hv, decode_dispatch_of_decodeRow (decodeRow_match p hp), hrow]

/-! ### The fields of a command word -/

theorem toNat_cmdOp (w : CmdWord) : (cmdOp w).toNat = w.toNat / 2 ^ 65 := by
  rw [cmdOp, BitVec.extractLsb'_toNat, Nat.shiftRight_eq_div_pow]
  omega

theorem toNat_cmdArg (w : CmdWord) : (cmdArg w).toNat = w.toNat % 2 ^ 64 := by
  rw [cmdArg, BitVec.extractLsb'_toNat, Nat.shiftRight_zero]

theorem ofBit_cmdLvl (w : CmdWord) :
    Level.ofBit (cmdLvl w) = if w.toNat / 2 ^ 64 % 2 = 1 then .high else .low := by
  have hlvl : cmdLvl w = 1 ↔ w.toNat / 2 ^ 64 % 2 = 1 := by
    rw [← BitVec.toNat_inj, cmdLvl, BitVec.extractLsb'_toNat, Nat.shiftRight_eq_div_pow]
    rfl
  simp only [Level.ofBit, hlvl]

/-- Settles O3: each opcode selects its branch of the decoder, which reads the fields named. -/
theorem commandFieldsSelectInstruction : Obligations.CommandFieldsSelectInstruction := by
  refine ⟨rfl, rfl, fun w => ?_⟩
  have hop (k : BitVec 3) (h : w.toNat / 2 ^ 65 = k.toNat) : cmdOp w = k :=
    BitVec.eq_of_toNat_eq ((toNat_cmdOp w).trans h)
  dsimp only
  rw [← toNat_cmdArg, ← ofBit_cmdLvl]
  refine ⟨fun h => ?_, fun h => ?_, fun h => ?_, fun h => ?_, fun h => ?_, fun h => ?_,
    fun h => ?_, fun h => ?_, by omega⟩
  · simp [decodeCmd, hop 0 h]
  · simp [decodeCmd, hop 1 h]
  · simp [decodeCmd, hop 2 h]
  · simp [decodeCmd, hop 3 h]
  · simp [decodeCmd, hop 4 h]
  · simp [decodeCmd, hop 5 h]
  · simp [decodeCmd, hop 6 h]
  · simp [decodeCmd, hop 7 h]

/-! ### The rows of the transition table -/

/-- The bits of the vector of a measured pulse in a state. -/
def stateBits (f : FsmState) : List (Nat × Bool) :=
  [(13, true), (12, f.code.getLsbD 2), (11, f.code.getLsbD 1), (10, f.code.getLsbD 0)]

/-- The bits of a vector that a row looks at, with the value it needs (30_encoding.md rules R93,
R94). -/
def rowBits : Row → List (Nat × Bool)
  | .tFirst => [(13, false)]
  | .tIdleIgnore => stateBits .idle ++ [(6, false)]
  | .tIdleLeader => stateBits .idle ++ [(6, true), (8, true)]
  | .tIdlePol => stateBits .idle ++ [(6, true), (8, false)]
  | .tTimeoutLl => stateBits .leaderLow ++ [(9, true)]
  | .tTimeoutLh => stateBits .leaderHigh ++ [(9, true)]
  | .tTimeoutDl => stateBits .dataLow ++ [(9, true)]
  | .tTimeoutDh => stateBits .dataHigh ++ [(9, true)]
  | .tTimeoutSep => stateBits .sep ++ [(9, true)]
  | .tLlOk => stateBits .leaderLow ++ [(9, false), (8, true), (6, true)]
  | .tLlBad => stateBits .leaderLow ++ [(9, false), (8, true), (6, false)]
  | .tLlPol => stateBits .leaderLow ++ [(9, false), (8, false)]
  | .tLhOk => stateBits .leaderHigh ++ [(9, false), (7, true), (5, true)]
  | .tLhBad => stateBits .leaderHigh ++ [(9, false), (7, true), (5, false)]
  | .tLhPol => stateBits .leaderHigh ++ [(9, false), (7, false)]
  | .tDlSep => stateBits .dataLow ++ [(9, false), (4, true), (0, true)]
  | .tDlBit => stateBits .dataLow ++ [(9, false), (4, true), (0, false)]
  | .tDlSkip => stateBits .dataLow ++ [(9, false), (4, false)]
  | .tDhBit0 => stateBits .dataHigh ++ [(9, false), (3, true)]
  | .tDhBit1 => stateBits .dataHigh ++ [(9, false), (3, false), (2, true)]
  | .tDhFail => stateBits .dataHigh ++ [(9, false), (3, false), (2, false)]
  | .tSepOk => stateBits .sep ++ [(9, false), (1, true)]
  | .tSepBad => stateBits .sep ++ [(9, false), (1, false)]

theorem rowTable_bits : ∀ p ∈ rowTable, ∀ i : Fin 14, p.mask.getLsbD i = true →
    (i.val, p.matchBits.getLsbD i) ∈ rowBits p.row := by
  decide

/-- A vector selects a row when it has the bits the row looks at. -/
theorem decodeRow_of_bits {v : DispatchWord} {r : Row}
    (h : ∀ x ∈ rowBits r, v.getLsbD x.1 = x.2) : decodeRow v = some r := by
  obtain ⟨p, hp, rfl⟩ : ∃ p ∈ rowTable, p.row = r := by cases r <;> decide
  apply decodeRow_of_applies hp
  apply BitVec.eq_of_getLsbD_eq
  intro i hi
  rw [← rowTable_matchBits p hp, BitVec.getLsbD_and, BitVec.getLsbD_and]
  cases hm : p.mask.getLsbD i with
  | false => simp
  | true => rw [h _ (rowTable_bits p hp ⟨i, hi⟩ hm)]

theorem decodeRow_of_not_prevValid {v : DispatchWord} (h : v.getLsbD 13 = false) :
    decodeRow v = some .tFirst :=
  decodeRow_of_bits (List.forall_mem_singleton.mpr h)

theorem stateBits_of_code {v : DispatchWord} {f : FsmState} (hv : v.getLsbD 13 = true)
    (hc : v.extractLsb' 10 3 = f.code) : ∀ x ∈ stateBits f, v.getLsbD x.1 = x.2 := by
  simp [stateBits, hv, ← hc, BitVec.getLsbD_extractLsb', -BitVec.getLsbD_eq_getElem]

/-- The row of a measured pulse in a state from the bits of its vector: the tests of 42_fsm.md rule
R150 in the source's own order. -/
def stateRow (f : FsmState) (v : DispatchWord) : Row :=
  match f with
  | .idle =>
    if v.getLsbD 6 then (if v.getLsbD 8 then .tIdleLeader else .tIdlePol) else .tIdleIgnore
  | .leaderLow =>
    if v.getLsbD 9 then .tTimeoutLl
    else if v.getLsbD 8 then (if v.getLsbD 6 then .tLlOk else .tLlBad)
    else .tLlPol
  | .leaderHigh =>
    if v.getLsbD 9 then .tTimeoutLh
    else if v.getLsbD 7 then (if v.getLsbD 5 then .tLhOk else .tLhBad)
    else .tLhPol
  | .dataLow =>
    if v.getLsbD 9 then .tTimeoutDl
    else if v.getLsbD 4 then (if v.getLsbD 0 then .tDlSep else .tDlBit)
    else .tDlSkip
  | .dataHigh =>
    if v.getLsbD 9 then .tTimeoutDh
    else if v.getLsbD 3 then .tDhBit0
    else if v.getLsbD 2 then .tDhBit1
    else .tDhFail
  | .sep =>
    if v.getLsbD 9 then .tTimeoutSep else if v.getLsbD 1 then .tSepOk else .tSepBad

/-- The table decodes a vector that carries the code of a state as the tests of that state do. -/
theorem decodeRow_of_code {v : DispatchWord} {f : FsmState} (hv : v.getLsbD 13 = true)
    (hc : v.extractLsb' 10 3 = f.code) : decodeRow v = some (stateRow f v) := by
  have hf := stateBits_of_code hv hc
  apply decodeRow_of_bits
  cases f
  all_goals
    simp only [stateRow]
    split_ifs
    all_goals
      refine List.forall_mem_append.mpr ⟨hf, ?_⟩
      simp [-BitVec.getLsbD_eq_getElem, *]

/-- A row other than `T_FIRST` is decoded only with the code of the state it is a row of. -/
theorem decodeRow_source {v : DispatchWord} {r : Row} {f : FsmState} (h : decodeRow v = some r)
    (hf : rowSource r = some f) : v.extractLsb' 10 3 = f.code := by
  obtain ⟨p, hp, rfl, hv⟩ := decodeRow_mem h
  obtain ⟨hm, hc⟩ := rowTable_source f p hp hf
  rw [← hc, ← hv, BitVec.extractLsb'_and, hm, BitVec.and_allOnes]

theorem rowSource_eq_none {r : Row} (h : rowSource r = none) : r = .tFirst := by
  cases r with
  | tFirst => rfl
  | _ => cases h

theorem rowTable_tFirst : ∀ p ∈ rowTable, p.row = .tFirst →
    p.mask.getLsbD 13 = true ∧ p.matchBits.getLsbD 13 = false := by
  decide

/-- A vector with `prev_valid` = 1 and the code of no state selects no row: `T_FIRST` needs
`prev_valid` = 0, and every other row the code of its state. -/
theorem decodeRow_of_no_state {v : DispatchWord} (hv : v.getLsbD 13 = true)
    (hc : ∀ f : FsmState, v.extractLsb' 10 3 ≠ f.code) : decodeRow v = none := by
  refine Option.eq_none_iff_forall_ne_some.mpr fun r h => ?_
  cases hs : rowSource r with
  | some f => exact hc f (decodeRow_source h hs)
  | none =>
    obtain rfl := rowSource_eq_none hs
    obtain ⟨p, hp, hr, happ⟩ := decodeRow_mem h
    obtain ⟨hm, hb⟩ := rowTable_tFirst p hp hr
    rw [← happ, BitVec.getLsbD_and, hv, hm] at hb
    cases hb

/-- The states have the codes up to 5, and each of these is the code of a state. -/
theorem exists_code_iff (c : BitVec 3) : (∃ f : FsmState, c = f.code) ↔ c.toNat ≤ 5 := by
  constructor
  · rintro ⟨f, rfl⟩
    cases f <;> decide
  · intro hc
    obtain ⟨f, hf⟩ : ∃ f, FsmState.ofCode c = some f := by
      rw [← Option.isSome_iff_exists]
      decide +revert
    exact ⟨f, (code_ofCode c f hf).symm⟩

theorem rowTable_row_injective : ∀ p ∈ rowTable, ∀ q ∈ rowTable, p.row = q.row → p = q := by
  decide

/-- Settles O4: an applying row is the decoded one; with `prev_valid` = 0 that is `T_FIRST`, and
otherwise the row of the state whose code the vector carries. -/
theorem transitionRowsDisjointAndCovering : Obligations.TransitionRowsDisjointAndCovering := by
  refine ⟨fun v p hp q hq h h' => ?_, fun v h => ?_, fun v hv hc => ?_⟩
  · apply rowTable_row_injective p hp q hq
    exact Option.some.inj ((decodeRow_of_applies hp h).symm.trans (decodeRow_of_applies hq h'))
  · obtain ⟨r, hr⟩ : ∃ r, decodeRow v = some r := by
      cases hv : v.getLsbD 13 with
      | false => exact ⟨_, decodeRow_of_not_prevValid hv⟩
      | true =>
        obtain ⟨f, hf⟩ := (exists_code_iff _).mpr (h.resolve_left (by simp [hv]))
        exact ⟨_, decodeRow_of_code hv hf⟩
    obtain ⟨p, hp, rfl, happ⟩ := decodeRow_mem hr
    exact ⟨p, hp, happ, decode_dispatch_of_decodeRow hr⟩
  · have hnone : decodeRow v = none := decodeRow_of_no_state hv fun f hf => by
      have := (exists_code_iff _).mp ⟨f, hf⟩
      omega
    rw [decode, hnone]

/-! ### The bits of the dispatch vector of an edge -/

section VectorBits
variable (d : DecoderState) (e : Edge)

theorem dispatchVector_bit_iff (i : Fin 14) :
    (dispatchVector d e).getLsbD i = true ↔ (vectorBits d e)[i] = true := by
  rw [getLsbD_dispatchVector]

theorem dispatchVector_prevValid : (dispatchVector d e).getLsbD 13 = d.prevValid :=
  getLsbD_dispatchVector d e 13

theorem dispatchVector_idle_iff :
    (dispatchVector d e).getLsbD 9 = true ↔ d.th.idle < (pulseWidth d e : Int) :=
  (dispatchVector_bit_iff d e 9).trans (pIdle_iff _ _)

theorem dispatchVector_rise_iff : (dispatchVector d e).getLsbD 8 = true ↔ Rise d e.lvl :=
  (dispatchVector_bit_iff d e 8).trans (pRise_iff _ _)

theorem dispatchVector_fall_iff : (dispatchVector d e).getLsbD 7 = true ↔ Fall d e.lvl :=
  (dispatchVector_bit_iff d e 7).trans (pFall_iff _ _)

theorem dispatchVector_leadLow_iff :
    (dispatchVector d e).getLsbD 6 = true ↔ InWindow (pulseWidth d e) d.th.leadLow :=
  (dispatchVector_bit_iff d e 6).trans (near_iff _ _)

theorem dispatchVector_leadHigh_iff :
    (dispatchVector d e).getLsbD 5 = true ↔ InWindow (pulseWidth d e) d.th.leadHigh :=
  (dispatchVector_bit_iff d e 5).trans (near_iff _ _)

theorem dispatchVector_bitLow_iff :
    (dispatchVector d e).getLsbD 4 = true ↔ InWindow (pulseWidth d e) d.th.bitLow :=
  (dispatchVector_bit_iff d e 4).trans (near_iff _ _)

theorem dispatchVector_bit0High_iff :
    (dispatchVector d e).getLsbD 3 = true ↔ InWindow (pulseWidth d e) d.th.bit0High :=
  (dispatchVector_bit_iff d e 3).trans (near_iff _ _)

theorem dispatchVector_bit1High_iff :
    (dispatchVector d e).getLsbD 2 = true ↔ InWindow (pulseWidth d e) d.th.bit1High :=
  (dispatchVector_bit_iff d e 2).trans (near_iff _ _)

theorem dispatchVector_sep_iff : (dispatchVector d e).getLsbD 1 = true ↔
    85 * d.th.sepHigh < 100 * (pulseWidth d e : Int) :=
  (dispatchVector_bit_iff d e 1).trans (pSep_iff _ _)

theorem dispatchVector_full_iff :
    (dispatchVector d e).getLsbD 0 = true ↔ d.byteCount = 6 ∧ d.bitCount = 0 :=
  (dispatchVector_bit_iff d e 0).trans (pFull_iff _)

end VectorBits

/-- Settles O6, bit by bit; the row is decoded from the vector and nothing else. -/
theorem dispatchVectorBits : Obligations.DispatchVectorBits :=
  ⟨fun _ _ _ _ h => congrArg decodeRow h,
    fun _ hv => decode_dispatch_of_decodeRow (decodeRow_of_not_prevValid hv),
    fun d e => ⟨dispatchVector_prevValid d e, dispatchVector_state d e,
      dispatchVector_full_iff d e, fun _ => ⟨dispatchVector_idle_iff d e,
        dispatchVector_rise_iff d e, dispatchVector_fall_iff d e, dispatchVector_leadLow_iff d e,
        dispatchVector_leadHigh_iff d e, dispatchVector_bitLow_iff d e,
        dispatchVector_bit0High_iff d e, dispatchVector_bit1High_iff d e,
        dispatchVector_sep_iff d e⟩⟩⟩

/-! ### The response of a command -/

/-- An instruction that answers a next state gives one response, and has no effect on the core or
the stream unless that is `OK`. -/
theorem exec_responds {i : Instr} {s s' : State} (h : exec i s = .next s') :
    ∃ r, s'.responses = s.responses ++ [r] ∧ (r ≠ .ok → s'.dec = s.dec ∧ s'.out = s.out) := by
  rcases exec_effect i s s' h with
    ⟨r, -, ha⟩ | ⟨d, -, hd⟩ | ⟨t, l, r, d, as, -, -, -, -, he⟩ | ⟨r, d, as, -, -, he⟩
  · rw [onlyAnswered_inj] at ha
    subst ha
    exact ⟨r, rfl, fun _ => ⟨rfl, rfl⟩⟩
  · cases hd
    exact ⟨.ok, rfl, absurd rfl⟩
  all_goals
    rw [edgeDone_inj] at he
    subst he
    exact ⟨.ok, rfl, absurd rfl⟩

/-- Settles O45: with the reset input released the step executes the command word. -/
theorem oneResponsePerCommand : Obligations.OneResponsePerCommand := by
  refine ⟨fun s s' w rest hr hp h => ?_, rfl, rfl, rfl, fun r => by cases r <;> decide⟩
  rw [stepRunsDecodedCommand.1 s w rest hr hp] at h
  exact exec_responds (s := { s with pending := rest }) h

/-! ### Listed words, codes and labels -/

/-- Settles O1: the words are closed data, so each is decoded by evaluation. -/
theorem wordsDecodeAsListed : Obligations.WordsDecodeAsListed := by
  unfold Obligations.WordsDecodeAsListed
  decide

/-- Settles O5: the codes are closed data, so each list is evaluated. -/
theorem portCodes : Obligations.PortCodes := by
  unfold Obligations.PortCodes
  decide

/-- Settles O41: each label is a stated point of its table, so evaluation meets no free entry. -/
theorem statedLabels : Obligations.StatedLabels := by
  refine ⟨rfl, rfl, rfl, rfl, rfl, ?_, fun v => rfl, rfl⟩
  decide

end Sys2Proof.Proofs

/-! SUPPORT. A whole block: the leader before the data, the bytes by induction on them, and the
separator after them (30_encoding.md rule R81; 42_fsm.md rules R154, R156, R159, R162, R168). -/

namespace Sys2Proof.Proofs

open Sys2Proof.Machine Sys2Proof.Safety Sys2Proof.Laws

/-! ### The edges outside the data -/

/-- A row does what its effect says, and answers a next state. -/
theorem runRow_of_effect {r : Row} {s : State} {d : DecoderState} {as : List Annotation}
    (h : RowEffect r s d as) : runRow r s = edgeDone s d as := by
  cases r with
  | tDhBit0 | tDhBit1 =>
    obtain ⟨h7, rfl, rfl⟩ | ⟨h6, h7, rfl, rfl⟩ := h
    · exact decodeBit_open _ s h7
    · exact decodeBit_close _ s h7 h6
  | tIdlePol | tLlPol | tLhPol | tDhFail =>
    obtain ⟨rfl, rfl⟩ := h
    exact silentReset_eq s
  | tFirst | tIdleIgnore | tDlSkip | tDlSep | tDlBit =>
    obtain ⟨rfl, rfl⟩ := h
    exact finishEdge_eq _
  | _ =>
    obtain ⟨rfl, rfl⟩ := h
    rfl

/-- After a first edge the row is that of the state's own tests. -/
theorem selectRow_of_prevValid {d : DecoderState} (e : Edge) (h : d.prevValid = true) :
    selectRow d e = some (stateRow d.state (dispatchVector d e)) :=
  decodeRow_of_code ((dispatchVector_prevValid d e).trans h) (dispatchVector_state d e)

/-- An edge that ends a measured pulse has the effect of the row of the state's own tests. -/
theorem exec_edge_of_effect {s : State} {t : Nat} {l : Level} {d : DecoderState}
    {as : List Annotation} (r : Row) (hm : Measured s.dec t)
    (hr : stateRow s.dec.state (dispatchVector s.dec { t := t, lvl := l }) = r)
    (h : RowEffect r (withEdge s t l) d as) :
    exec (.edge t l) s = edgeDone (withEdge s t l) d as := by
  rw [exec_edge_of_selectRow hm (selectRow_of_prevValid _ hm.prevValid), hr, runRow_of_effect h]

theorem dispatchVector_idle_of_notIdle {d : DecoderState} {t : Nat} (l : Level)
    (h : NotIdle d t) : ¬ (dispatchVector d { t := t, lvl := l }).getLsbD 9 = true := by
  rw [dispatchVector_idle_iff]
  exact not_lt.mpr h

/-- A low pulse of leader-low width begins a block (42_fsm.md rules R154, R156). -/
theorem exec_edge_leaderLow {s : State} {t : Nat} {l : Level} (hm : Measured s.dec t)
    (hs : s.dec.state = .idle ∨ (s.dec.state = .leaderLow ∧ NotIdle s.dec t))
    (hw : InWindow (t - s.dec.prevTs) s.dec.th.leadLow) (hr : Rise s.dec l) :
    exec (.edge t l) s = edgeDone (withEdge s t l) { s.dec with state := .leaderHigh }
      [overPulse (withEdge s t l) .leader 0] := by
  have h6 := (dispatchVector_leadLow_iff s.dec { t := t, lvl := l }).mpr hw
  have h8 := (dispatchVector_rise_iff s.dec { t := t, lvl := l }).mpr hr
  obtain hs | ⟨hs, hi⟩ := hs
  · exact exec_edge_of_effect .tIdleLeader hm (by rw [hs, stateRow, if_pos h6, if_pos h8])
      ⟨rfl, rfl⟩
  · have h9 := dispatchVector_idle_of_notIdle l hi
    exact exec_edge_of_effect .tLlOk hm
      (by rw [hs, stateRow, if_neg h9, if_pos h8, if_pos h6]) ⟨rfl, rfl⟩

/-- A high pulse of leader-high width begins the data (42_fsm.md rule R159). -/
theorem exec_edge_leaderHigh {s : State} {t : Nat} {l : Level} (hm : Measured s.dec t)
    (hs : s.dec.state = .leaderHigh) (hi : NotIdle s.dec t) (hf : Fall s.dec l)
    (hw : InWindow (t - s.dec.prevTs) s.dec.th.leadHigh) :
    exec (.edge t l) s =
      edgeDone (withEdge s t l)
        { s.dec with state := .dataLow, acc := 0, bitCount := 0, buf := emptyBuf, byteCount := 0 }
        [overPulse (withEdge s t l) .leader 1] := by
  have h5 := (dispatchVector_leadHigh_iff s.dec { t := t, lvl := l }).mpr hw
  have h7 := (dispatchVector_fall_iff s.dec { t := t, lvl := l }).mpr hf
  have h9 := dispatchVector_idle_of_notIdle l hi
  exact exec_edge_of_effect .tLhOk hm
    (by rw [hs, stateRow, if_neg h9, if_pos h7, if_pos h5]) ⟨rfl, rfl⟩

/-- A bit-low pulse after the sixth byte is the separator's (42_fsm.md rule R162). -/
theorem exec_edge_separatorLow {s : State} {t : Nat} {l : Level} (hm : Measured s.dec t)
    (hs : s.dec.state = .dataLow) (hi : NotIdle s.dec t)
    (hw : InWindow (t - s.dec.prevTs) s.dec.th.bitLow)
    (hfull : s.dec.byteCount = 6 ∧ s.dec.bitCount = 0) :
    exec (.edge t l) s = edgeDone (withEdge s t l) { s.dec with state := .sep } [] := by
  have h4 := (dispatchVector_bitLow_iff s.dec { t := t, lvl := l }).mpr hw
  have h0 := (dispatchVector_full_iff s.dec { t := t, lvl := l }).mpr hfull
  have h9 := dispatchVector_idle_of_notIdle l hi
  exact exec_edge_of_effect .tDlSep hm
    (by rw [hs, stateRow, if_neg h9, if_pos h4, if_pos h0]) ⟨rfl, rfl⟩

/-- A long enough high pulse in `SEP` completes the block (42_fsm.md rule R168). -/
theorem exec_edge_separatorHigh {s : State} {t : Nat} {l : Level} (hm : Measured s.dec t)
    (hs : s.dec.state = .sep) (hi : NotIdle s.dec t)
    (hw : 85 * s.dec.th.sepHigh < 100 * ((t - s.dec.prevTs : Nat) : Int)) :
    exec (.edge t l) s =
      edgeDone (withEdge s t l)
        { s.dec with state := .leaderLow, buf := emptyBuf, byteCount := 0, bitCount := 0 }
        [{ kind := .separator, data := 0, start := (s.dec.prevTs : Int) - s.dec.th.bitLow
           stop := min (t : Int) ((s.dec.prevTs : Int) + s.dec.th.sepHigh) }] := by
  have h1 := (dispatchVector_sep_iff s.dec { t := t, lvl := l }).mpr hw
  have h9 := dispatchVector_idle_of_notIdle l hi
  exact exec_edge_of_effect .tSepOk hm
    (by rw [hs, stateRow, if_neg h9, if_pos h1]) ⟨rfl, rfl⟩

/-! ### The leader and the separator -/

theorem notIdle_of_inWindow {d : DecoderState} {R us t : Nat} (hth : d.th = calibrate R)
    (hus : 2 * us ≤ Config.usIdle) (h : InWindow (t - d.prevTs) (threshold R us)) :
    NotIdle d t := by
  have hi := pIdle_of_inWindow hus h
  rw [← hth, ← Bool.not_eq_true, pIdle_iff] at hi
  exact not_lt.mp hi

/-- The machine after an edge step that leaves the core as `d` but for the tracker. -/
def afterEdge (s : State) (t : Nat) (l : Level) (d : DecoderState) (as : List Annotation) : State :=
  { s with
    dec := { d with prevValid := true, prevTs := t, prevLevel := l }
    edge := { t := t, lvl := l }
    out := s.out ++ as
    responses := s.responses ++ [.ok] }

theorem execAll_pair {i j : Instr} {s s1 s2 : State} (hi : exec i s = .next s1)
    (hj : exec j s1 = .next s2) : execAll [i, j] s = .next s2 := by
  rw [execAll, hi, andThen_next, execAll, hj]
  rfl

/-- The record of a leader's pulse. -/
def leaderRecord (data : Byte) (start stop : Nat) : Annotation :=
  { kind := .leader, data := data, start := start, stop := stop }

@[simp] theorem leaderRecord_kind (data : Byte) (start stop : Nat) :
    (leaderRecord data start stop).kind = .leader := rfl

/-- The machine between the two edges of a leader. -/
def inLeader (s : State) (low : Nat) : State :=
  afterEdge s (s.dec.prevTs + low) .high { s.dec with state := .leaderHigh }
    [leaderRecord 0 s.dec.prevTs (s.dec.prevTs + low)]

/-- The machine after a leader: in `DATA_LOW`, with an empty block. -/
def afterLeader (s : State) (low high : Nat) : State :=
  afterEdge (inLeader s low) (s.dec.prevTs + low + high) .low
    { s.dec with state := .dataLow, acc := 0, bitCount := 0, buf := emptyBuf, byteCount := 0 }
    [leaderRecord 1 (s.dec.prevTs + low) (s.dec.prevTs + low + high)]

section AfterLeader
variable (s : State) (low high : Nat)

@[simp] theorem afterLeader_byteCount : (afterLeader s low high).dec.byteCount = 0 := rfl

@[simp] theorem afterLeader_out : (afterLeader s low high).out = s.out ++
    [leaderRecord 0 s.dec.prevTs (s.dec.prevTs + low),
      leaderRecord 1 (s.dec.prevTs + low) (s.dec.prevTs + low + high)] := by
  simp [afterLeader, inLeader, afterEdge]

end AfterLeader

/-- The two edges of a leader whose pulses lie in their windows. -/
theorem execAll_leader {s : State} {low high R : Nat} (hrun : s.dec.running = true)
    (hv : s.dec.prevValid = true) (hl : s.dec.prevLevel = .low)
    (hs : s.dec.state = .idle ∨ s.dec.state = .leaderLow) (hth : s.dec.th = calibrate R)
    (hlow : 0 < low) (hhigh : 0 < high) (hwl : InWindow low s.dec.th.leadLow)
    (hwh : InWindow high s.dec.th.leadHigh) :
    execAll [.edge (s.dec.prevTs + low) .high, .edge (s.dec.prevTs + low + high) .low] s =
      .next (afterLeader s low high) := by
  have hwl' : InWindow (s.dec.prevTs + low - s.dec.prevTs) s.dec.th.leadLow := by
    rwa [Nat.add_sub_cancel_left]
  have hwh' : InWindow (s.dec.prevTs + low + high - (s.dec.prevTs + low)) s.dec.th.leadHigh := by
    rwa [Nat.add_sub_cancel_left]
  refine execAll_pair (s1 := inLeader s low) ?_ ?_
  · refine exec_edge_leaderLow ⟨hrun, hv, by omega⟩ (hs.imp_right fun h => ⟨h, ?_⟩) hwl' ⟨hl, rfl⟩
    exact notIdle_of_inWindow hth (us := Config.usLeadLow) (by decide) (by rwa [hth] at hwl')
  · refine exec_edge_leaderHigh (s := inLeader s low)
      ⟨hrun, rfl, Nat.lt_add_of_pos_right hhigh⟩ rfl ?_ ⟨rfl, rfl⟩ hwh'
    exact notIdle_of_inWindow hth (us := Config.usLeadHigh) (by decide) (by rwa [hth] at hwh')

theorem inData_afterLeader {s : State} {R : Nat} (low high : Nat) (hrun : s.dec.running = true)
    (hth : s.dec.th = calibrate R) : InData (afterLeader s low high).dec :=
  ⟨rfl, hrun, rfl, R, hth⟩

/-- The machine between the two edges of a separator. -/
def inSeparator (s : State) (low : Nat) : State :=
  afterEdge s (s.dec.prevTs + low) .high { s.dec with state := .sep } []

/-- The record of a separator whose high pulse begins at `start` and ends at `stop` (42_fsm.md rule
R168). -/
def separatorRecord (th : Thresholds) (start stop : Nat) : Annotation :=
  { kind := .separator, data := 0, start := (start : Int) - th.bitLow
    stop := min (stop : Int) ((start : Int) + th.sepHigh) }

@[simp] theorem separatorRecord_kind (th : Thresholds) (start stop : Nat) :
    (separatorRecord th start stop).kind = .separator := rfl

/-- The machine after a separator: in `LEADER_LOW`, with nothing pending. -/
def afterSeparator (s : State) (low high : Nat) : State :=
  afterEdge (inSeparator s low) (s.dec.prevTs + low + high) .low
    { s.dec with state := .leaderLow, buf := emptyBuf, byteCount := 0, bitCount := 0 }
    [separatorRecord s.dec.th (s.dec.prevTs + low) (s.dec.prevTs + low + high)]

@[simp] theorem afterSeparator_out (s : State) (low high : Nat) :
    (afterSeparator s low high).out = s.out ++
      [separatorRecord s.dec.th (s.dec.prevTs + low) (s.dec.prevTs + low + high)] := by
  simp [afterSeparator, inSeparator, afterEdge]

/-- The two edges of a separator after the sixth byte. -/
theorem execAll_separator {s : State} {low high : Nat} (h : InData s.dec)
    (hfull : s.dec.byteCount = 6 ∧ s.dec.bitCount = 0) (hlow : 0 < low) (hhigh : 0 < high)
    (hwl : InWindow low s.dec.th.bitLow) (hwh : 85 * s.dec.th.sepHigh < 100 * (high : Int))
    (hi : (high : Int) ≤ s.dec.th.idle) :
    execAll [.edge (s.dec.prevTs + low) .high, .edge (s.dec.prevTs + low + high) .low] s =
      .next (afterSeparator s low high) := by
  obtain ⟨R, hth⟩ := h.calibrated
  have hwl' : InWindow (s.dec.prevTs + low - s.dec.prevTs) s.dec.th.bitLow := by
    rwa [Nat.add_sub_cancel_left]
  have hhigh' : s.dec.prevTs + low + high - (inSeparator s low).dec.prevTs = high :=
    Nat.add_sub_cancel_left _ _
  refine execAll_pair (s1 := inSeparator s low) ?_ ?_
  · refine exec_edge_separatorLow ⟨h.running, h.prevValid, by omega⟩ h.state ?_ hwl' hfull
    exact notIdle_of_inWindow hth (us := Config.usBitLow) (by decide) (by rwa [hth] at hwl')
  · refine exec_edge_separatorHigh (s := inSeparator s low)
      ⟨h.running, rfl, Nat.lt_add_of_pos_right hhigh⟩ rfl ?_ ?_
    · rw [NotIdle, hhigh']
      exact hi
    · rw [hhigh']
      exact hwh

/-! ### The bytes -/

/-- The core after a byte, in what the records of the next byte depend on: where it begins and its
index. -/
def nextByte (d : DecoderState) (bs : List BitSymbol) : DecoderState :=
  { d with prevTs := d.prevTs + duration bs, byteCount := d.byteCount + 1 }

@[simp] theorem nextByte_byteCount (d : DecoderState) (bs : List BitSymbol) :
    (nextByte d bs).byteCount = d.byteCount + 1 := rfl

/-- What the bytes of a block emit, from a byte boundary on. -/
def bytesRecords (d : DecoderState) : List (List BitSymbol) → List Annotation
  | [] => []
  | bs :: bss =>
    byteRecords d bs ++ bytesRecords (nextByte d bs) bss

/-- The records of a byte depend on the thresholds, the start of the byte and its index only. -/
theorem byteRecords_congr {d d' : DecoderState} (hth : d.th = d'.th) (hts : d.prevTs = d'.prevTs)
    (hi : d.byteCount = d'.byteCount) (bs : List BitSymbol) :
    byteRecords d bs = byteRecords d' bs := by
  rw [byteRecords, byteRecords, hts, hi]
  congr 2
  apply fieldRecords_congr
  · exact hth
  · rfl

theorem bytesRecords_congr {d d' : DecoderState} (hth : d.th = d'.th) (hts : d.prevTs = d'.prevTs)
    (hi : d.byteCount = d'.byteCount) (bss : List (List BitSymbol)) :
    bytesRecords d bss = bytesRecords d' bss := by
  induction bss generalizing d d' with
  | nil => rfl
  | cons bs bss ih =>
    rw [bytesRecords, bytesRecords, byteRecords_congr hth hts hi]
    exact congrArg _ (ih hth (congrArg (· + duration bs) hts) (congrArg (· + 1) hi))

/-- `s'` is `s`, at a byte boundary, after the bytes `bss`. -/
structure BytesReceived (s : State) (bss : List (List BitSymbol)) (s' : State) : Prop where
  inData : InData s'.dec
  th : s'.dec.th = s.dec.th
  prevTs : s'.dec.prevTs = s.dec.prevTs + duration bss.flatten
  bitCount : s'.dec.bitCount = 0
  byteCount : s'.dec.byteCount = s.dec.byteCount + bss.length
  out : s'.out = s.out ++ bytesRecords s.dec bss

theorem duration_append (bs cs : List BitSymbol) :
    duration (bs ++ cs) = duration bs + duration cs := by
  simp [duration]

/-- Bytes of symbols received from a byte boundary on, by induction on them. -/
theorem execAll_bytes (bss : List (List BitSymbol)) {s : State} (h : InData s.dec)
    (h0 : s.dec.bitCount = 0) (hacc : s.dec.acc = 0) (h6 : s.dec.byteCount + bss.length ≤ 6)
    (hfit : ∀ bs ∈ bss, bs.length = 8 ∧ ∀ b ∈ bs, b.fits s.dec.th) :
    ∃ s', execAll (symbolEdges s.dec.prevTs bss.flatten) s = .next s' ∧ BytesReceived s bss s' := by
  induction bss generalizing s with
  | nil => exact ⟨s, rfl, h, rfl, rfl, h0, rfl, (List.append_nil _).symm⟩
  | cons bs bss ih =>
    obtain ⟨⟨hlen, hbs⟩, hbss⟩ := List.forall_mem_cons.mp hfit
    rw [List.length_cons] at h6
    obtain ⟨s1, hx1, hr1⟩ := execAll_eightSymbols h (by omega) h0 hacc hlen hbs
    obtain ⟨s2, hx2, hr2⟩ := ih hr1.inData hr1.bitCount hr1.acc (by rw [hr1.byteCount]; omega)
      (by rwa [hr1.th])
    refine ⟨s2, ?_, ?_⟩
    · rw [List.flatten_cons, symbolEdges_append, execAll_append, hx1, andThen_next, ← hr1.prevTs,
        hx2]
    · exact
        { inData := hr2.inData
          th := hr2.th.trans hr1.th
          prevTs := by
            rw [hr2.prevTs, hr1.prevTs, List.flatten_cons, duration_append, Nat.add_assoc]
          bitCount := hr2.bitCount
          byteCount := by rw [hr2.byteCount, hr1.byteCount, List.length_cons]; omega
          out := by
            rw [hr2.out, hr1.out, List.append_assoc, bytesRecords,
              bytesRecords_congr (d' := nextByte s.dec bs) hr1.th hr1.prevTs hr1.byteCount] }

/-! ### The records of a block by kind -/

@[simp] theorem ofKind_nil (k : AnnKind) : ofKind k [] = [] := rfl

theorem ofKind_symbolRecords_bit (t : Nat) (bs : List BitSymbol) :
    (ofKind .bit (symbolRecords t bs)).map (·.data) = bs.map fun b => bitData b.value := by
  induction bs generalizing t with
  | nil => rfl
  | cons b bs ih => simpa [symbolRecords, ofKind_cons] using ih _

/-- Byte 0 has an address record, with the byte itself (43_assembler.md rule R193). -/
theorem ofKind_fieldRecords_address (d : DecoderState) (t i : Nat) (v : Byte) :
    (ofKind .address (fieldRecords d t i v)).map (·.data) = if i = 0 then [v] else [] := by
  unfold fieldRecords
  split_ifs <;> simp [ofKind]

/-- Bytes 2 and 4 have a command record each (43_assembler.md rules R195, R197). -/
theorem length_ofKind_fieldRecords_command (d : DecoderState) (t i : Nat) (v : Byte) :
    (ofKind .command (fieldRecords d t i v)).length = if i = 2 ∨ i = 4 then 1 else 0 := by
  unfold fieldRecords
  split_ifs <;> simp [ofKind, *] <;> omega

/-- Byte 4 has at most one temperature record, no other byte has one (43_assembler.md rule R196). -/
theorem length_ofKind_fieldRecords_temperature (d : DecoderState) (t i : Nat) (v : Byte) :
    (ofKind .temperature (fieldRecords d t i v)).length ≤ if i = 4 then 1 else 0 := by
  unfold fieldRecords
  by_cases ht : grayTemp ((v >>> 4).setWidth 4) = 31
  all_goals split_ifs <;> simp [ofKind, *]

section ByteKinds
variable (d : DecoderState) (bs : List BitSymbol)

theorem ofKind_byteRecords_byte :
    (ofKind .byte (byteRecords d bs)).map (·.data) = [symbolsByte bs] := by
  simp [byteRecords, ofKind_append, ofKind_cons, ofKind_symbolRecords, ofKind_fieldRecords]

theorem ofKind_byteRecords_bit :
    (ofKind .bit (byteRecords d bs)).map (·.data) = bs.map fun b => bitData b.value := by
  simp [byteRecords, ofKind_append, ofKind_cons, ofKind_symbolRecords_bit, ofKind_fieldRecords]

/-- Besides `bit` and `byte` records a byte emits those of its fields only. -/
theorem ofKind_byteRecords_field {k : AnnKind} (hbit : k ≠ .bit) (hbyte : k ≠ .byte) :
    ofKind k (byteRecords d bs) =
      ofKind k (fieldRecords { d with byteStart := d.prevTs } (d.prevTs + duration bs) d.byteCount
        (symbolsByte bs)) := by
  simp [byteRecords, ofKind_append, ofKind_cons, ofKind_symbolRecords hbit, hbyte.symm]

end ByteKinds

section BytesKinds
variable (bss : List (List BitSymbol)) (d : DecoderState)

theorem ofKind_bytesRecords_byte :
    (ofKind .byte (bytesRecords d bss)).map (·.data) = bss.map symbolsByte := by
  induction bss generalizing d with
  | nil => rfl
  | cons bs bss ih => simp [bytesRecords, ofKind_append, ofKind_byteRecords_byte, ih]

theorem ofKind_bytesRecords_bit :
    (ofKind .bit (bytesRecords d bss)).map (·.data) = bss.flatten.map fun b => bitData b.value := by
  induction bss generalizing d with
  | nil => rfl
  | cons bs bss ih =>
    rw [bytesRecords, ofKind_append, List.map_append, ofKind_byteRecords_bit, ih,
      List.flatten_cons, List.map_append]

theorem ofKind_bytesRecords_other {k : AnnKind}
    (hk : k = .leader ∨ k = .separator ∨ k = .warning) : ofKind k (bytesRecords d bss) = [] := by
  induction bss generalizing d with
  | nil => rfl
  | cons bs bss ih =>
    rw [bytesRecords, ofKind_append, ih, List.append_nil]
    obtain rfl | rfl | rfl := hk
    all_goals simp [ofKind_byteRecords_field, ofKind_fieldRecords]

/-- Only the first byte of a block has an address record. -/
theorem ofKind_bytesRecords_address : (ofKind .address (bytesRecords d bss)).map (·.data) =
    if d.byteCount = 0 then (bss.map symbolsByte).take 1 else [] := by
  induction bss generalizing d with
  | nil => simp [bytesRecords, ofKind]
  | cons bs bss ih =>
    simp [bytesRecords, ofKind_append, ofKind_byteRecords_field, ofKind_fieldRecords_address, ih]

theorem length_ofKind_bytesRecords_command :
    (ofKind .command (bytesRecords d bss)).length =
      (List.range' d.byteCount bss.length).countP fun i => i = 2 ∨ i = 4 := by
  induction bss generalizing d with
  | nil => rfl
  | cons bs bss ih =>
    simp [bytesRecords, ofKind_append, ofKind_byteRecords_field, length_ofKind_fieldRecords_command,
      ih, List.range'_succ, List.countP_cons, Nat.add_comm]

theorem length_ofKind_bytesRecords_temperature :
    (ofKind .temperature (bytesRecords d bss)).length ≤
      (List.range' d.byteCount bss.length).countP fun i => i = 4 := by
  induction bss generalizing d with
  | nil => exact Nat.le_refl 0
  | cons bs bss ih =>
    have hfield := length_ofKind_fieldRecords_temperature { d with byteStart := d.prevTs }
      (d.prevTs + duration bs) d.byteCount (symbolsByte bs)
    have htail := ih (nextByte d bs)
    rw [bytesRecords, ofKind_append, List.length_append,
      ofKind_byteRecords_field d bs (by decide) (by decide), List.length_cons, List.range'_succ,
      List.countP_cons, Nat.add_comm]
    exact Nat.add_le_add htail (by simpa using hfield)

end BytesKinds

/-- The six bytes of a block emit two command records (43_assembler.md rule R200). -/
theorem length_ofKind_sixBytes_command {d : DecoderState} {bss : List (List BitSymbol)}
    (h0 : d.byteCount = 0) (hlen : bss.length = 6) :
    (ofKind .command (bytesRecords d bss)).length = 2 := by
  rw [length_ofKind_bytesRecords_command, h0, hlen]
  decide

/-- The six bytes of a block emit at most one temperature record (43_assembler.md rule R200). -/
theorem length_ofKind_sixBytes_temperature {d : DecoderState} {bss : List (List BitSymbol)}
    (h0 : d.byteCount = 0) (hlen : bss.length = 6) :
    (ofKind .temperature (bytesRecords d bss)).length ≤ 1 := by
  refine (length_ofKind_bytesRecords_temperature bss d).trans ?_
  rw [h0, hlen]
  decide

/-- Settles O53: the leader, the six bytes and the separator one after the other, and the records of
each part by kind. -/
theorem wellFormedBlockDecodes : Obligations.WellFormedBlockDecodes := by
  intro s ll lh sl sh bytes hinv hrun hv hl hs hll hlh hsl hsh hwll hwlh hwsl hwsh hidle hlen hfit
  obtain ⟨hcore, -⟩ := hinv
  have hth : s.dec.th = calibrate s.dec.rate := (hcore.calibrated (hcore.running_rate hrun)).2
  have hlead := execAll_leader hrun hv hl hs hth hll hlh hwll hwlh
  obtain ⟨s2, hbytes, hr⟩ := execAll_bytes bytes (s := afterLeader s ll lh)
    (inData_afterLeader ll lh hrun hth) rfl rfl (by rw [hlen]; exact le_refl 6) hfit
  have hth2 : s2.dec.th = s.dec.th := hr.th
  have hts2 : s2.dec.prevTs = s.dec.prevTs + ll + lh + duration bytes.flatten := hr.prevTs
  have hcount : s2.dec.byteCount = 6 := by rw [hr.byteCount, hlen]; rfl
  have hsep := execAll_separator hr.inData ⟨hcount, hr.bitCount⟩ hsl hsh (by rwa [hth2])
    (by rwa [hth2]) (by rwa [hth2])
  have hcommand := length_ofKind_sixBytes_command (afterLeader_byteCount s ll lh) hlen
  have htemperature := length_ofKind_sixBytes_temperature (afterLeader_byteCount s ll lh) hlen
  have hvalue : symbolsByte = fun bs => BitVec.ofNat 8 (msbValue (bs.map (·.value))) := rfl
  have hbit : bitData = fun b => if b then 1 else 0 := rfl
  refine ⟨afterSeparator s2 sl sh, ?_, rfl, rfl, rfl, ?_⟩
  · rw [execAll_append, execAll_append, hlead, andThen_next]
    have hedges : execAll (symbolEdges (s.dec.prevTs + ll + lh) bytes.flatten)
      (afterLeader s ll lh) = .next s2 := hbytes
    rw [hedges, andThen_next, ← hts2, hsep]
  · simp [hr.out, ofKind_append, ofKind_cons, ofKind_bytesRecords_byte, ofKind_bytesRecords_bit,
      ofKind_bytesRecords_address, ofKind_bytesRecords_other, hvalue, hbit, hcommand,
      htemperature]

end Sys2Proof.Proofs

/-! SUPPORT. The thresholds as functions of the rate and the nominal width: their sign, their order
and what doubling the rate does (40_calibrator.md rules R111 to R116). -/

namespace Sys2Proof.Proofs

open Sys2Proof.Machine Sys2Proof.Safety Sys2Proof.Laws

/-! ### One threshold -/

/-- The formula of 40_calibrator.md rule R111 in integer arithmetic. -/
theorem threshold_eq (R us : Nat) : threshold R us = (R : Int) * us / 1000000 - 1 := by
  rw [threshold, Int.natCast_ediv, Int.natCast_mul]
  rfl

theorem neg_one_le_threshold (R us : Nat) : -1 ≤ threshold R us := by
  rw [threshold]
  omega

theorem threshold_eq_neg_one {R us : Nat} (h : R * us < 1000000) : threshold R us = -1 := by
  rw [threshold, Nat.div_eq_of_lt h]
  rfl

/-- A threshold grows with the product of the rate and the nominal width, so with each of them. -/
theorem threshold_le_threshold {R R' us us' : Nat} (h : R * us ≤ R' * us') :
    threshold R us ≤ threshold R' us' :=
  Int.sub_le_sub_right (Int.ofNat_le.mpr (Nat.div_le_div_right h)) 1

theorem threshold_le_of_width_le (R : Nat) {us us' : Nat} (h : us ≤ us') :
    threshold R us ≤ threshold R us' :=
  threshold_le_threshold (Nat.mul_le_mul_left R h)

theorem threshold_two_mul (R us : Nat) :
    threshold (2 * R) us = 2 * threshold R us + 1 ∨
      threshold (2 * R) us = 2 * threshold R us + 2 := by
  rw [threshold, threshold, Nat.mul_assoc]
  omega

/-- The least rate `n` at which a threshold is non-negative is `ceil(1000000 / US_X)`
(40_calibrator.md rule R113). -/
theorem threshold_nonneg_iff {us n : Nat} (R : Nat) (hus : 0 < us) (hn : 1000000 ⌈/⌉ us = n) :
    0 ≤ threshold R us ↔ n ≤ R := by
  rw [← hn, ceilDiv_le_iff_le_mul hus, Nat.mul_comm us, threshold]
  omega

/-! ### The eight thresholds of a rate -/

theorem calibrate_nonneg_iff (R : Nat) :
    (0 ≤ (calibrate R).idle ↔ 34 ≤ R) ∧ (0 ≤ (calibrate R).sepHigh ↔ 196 ≤ R) ∧
    (0 ≤ (calibrate R).leadLow ↔ 223 ≤ R) ∧ (0 ≤ (calibrate R).leadHigh ↔ 230 ≤ R) ∧
    (0 ≤ (calibrate R).bit1High ↔ 625 ≤ R) ∧ (0 ≤ (calibrate R).sepLow ↔ 1667 ≤ R) ∧
    (0 ≤ (calibrate R).bitLow ↔ 1667 ≤ R) ∧ (0 ≤ (calibrate R).bit0High ↔ 2000 ≤ R) := by
  and_intros <;> exact threshold_nonneg_iff R (by decide) rfl

/-! ### What a negative threshold does -/

/-- The tolerance band of a negative threshold is empty: its upper bound is below 0. -/
theorem near_eq_false_of_neg (w : Nat) {b : Int} (hb : b < 0) : near w b = false := by
  rw [← Bool.not_eq_true, near_iff, InWindow]
  omega

/-- An over-long pulse in any state but `IDLE` times out (42_fsm.md rule R152). -/
theorem exec_edge_overlong {s : State} {t : Nat} (l : Level) (hm : Measured s.dec t)
    (hs : s.dec.state ≠ .idle) (hw : s.dec.th.idle < ((t - s.dec.prevTs : Nat) : Int)) :
    exec (.edge t l) s = edgeDone (withEdge s t l) (cleared s.dec)
      [overPulse (withEdge s t l) .warning 1] := by
  have h9 := (dispatchVector_idle_iff s.dec { t := t, lvl := l }).mpr hw
  cases hf : s.dec.state with
  | idle => exact absurd hf hs
  | leaderLow =>
    exact exec_edge_of_effect .tTimeoutLl hm (by rw [hf, stateRow, if_pos h9]) ⟨rfl, rfl⟩
  | leaderHigh =>
    exact exec_edge_of_effect .tTimeoutLh hm (by rw [hf, stateRow, if_pos h9]) ⟨rfl, rfl⟩
  | dataLow =>
    exact exec_edge_of_effect .tTimeoutDl hm (by rw [hf, stateRow, if_pos h9]) ⟨rfl, rfl⟩
  | dataHigh =>
    exact exec_edge_of_effect .tTimeoutDh hm (by rw [hf, stateRow, if_pos h9]) ⟨rfl, rfl⟩
  | sep =>
    exact exec_edge_of_effect .tTimeoutSep hm (by rw [hf, stateRow, if_pos h9]) ⟨rfl, rfl⟩

/-- Settles O15: the least rates one by one, of which 2000 is the greatest; a width is never
negative, so a threshold of -1 has no window and every pulse is over an idle threshold of -1. -/
theorem thresholdSigns : Obligations.ThresholdSigns := by
  refine ⟨fun R us => ⟨threshold_eq_neg_one, neg_one_le_threshold R us⟩, fun R => ?_,
    fun w _ => near_eq_false_of_neg w (by decide), fun s t l hm hs hi => ?_⟩
  · obtain ⟨hidle, hsepHigh, hleadLow, hleadHigh, hbit1, hsepLow, hbitLow, hbit0⟩ :=
      calibrate_nonneg_iff R
    refine ⟨hidle, hsepHigh, hleadLow, hleadHigh, hbit1, hsepLow, hbitLow, hbit0, ?_⟩
    rw [hidle, hsepHigh, hleadLow, hleadHigh, hbit1, hsepLow, hbitLow, hbit0]
    omega
  · exact exec_edge_overlong l hm hs (by omega)

/-! ### The command and the orderings -/

/-- `SET_RATE` at a positive rate writes the rate, its flag and the thresholds. -/
theorem exec_setRate_of_ne_zero {R : Nat} (s : State) (hR : R ≠ 0) :
    exec (.setRate R) s =
      commandDone s { s.dec with rate := R, rateValid := true, th := calibrate R } :=
  if_neg hR

/-- Settles O12, by the formula of each threshold. -/
theorem setRateRecomputesThresholds : Obligations.SetRateRecomputesThresholds := by
  refine fun s R => ⟨fun hR => if_pos hR, fun hR => ?_⟩
  rw [exec_setRate_of_ne_zero s hR, calibrate]
  simp only [threshold_eq]
  rfl

/-- Settles O13, at every nominal width; the example is evaluated. -/
theorem thresholdsMonotone : Obligations.ThresholdsMonotone := fun us _ =>
  ⟨fun _ _ h => threshold_le_threshold (Nat.mul_le_mul_right us h),
    fun R => threshold_two_mul R us, by decide, by decide⟩

/-- Settles O14: the thresholds are ordered as their nominal widths are. -/
theorem thresholdOrder : Obligations.ThresholdOrder := by
  refine ⟨fun R => ⟨rfl, ?_⟩, by decide, by decide, by decide⟩
  and_intros <;> exact threshold_le_of_width_le R (by decide)

/-- Settles O16: the rates are listed, so each row is evaluated. -/
theorem thresholdsAtListedRates : Obligations.ThresholdsAtListedRates := by
  unfold Obligations.ThresholdsAtListedRates
  decide

end Sys2Proof.Proofs

/-! SUPPORT. The windows of the classifier as sets of widths: their bounds, the widths they share
and the least rate at which they hold any (41_classifier.md rules R131, R135, R137, R138). -/

namespace Sys2Proof.Proofs

open Sys2Proof.Machine Sys2Proof.Safety Sys2Proof.Laws

/-! ### The bounds of a window -/

/-- The band from `ceil(85 b / 100)` to `floor(115 b / 100)` (41_classifier.md rule R131). -/
theorem inWindow_iff_ceil_floor (w : Nat) (b : Int) :
    InWindow w b ↔ -((-(85 * b)) / 100) ≤ (w : Int) ∧ (w : Int) ≤ 115 * b / 100 := by
  unfold InWindow
  have hceil : 85 * b ≤ 100 * (w : Int) ↔ -((-(85 * b)) / 100) ≤ (w : Int) := by omega
  have hfloor : 100 * (w : Int) ≤ 115 * b ↔ (w : Int) ≤ 115 * b / 100 := by omega
  exact and_congr hceil hfloor

/-- Settles O17: a band is two inequalities between integers, and dividing each by 100 rounds its
bound inwards. -/
theorem nearIsInclusiveBand : Obligations.NearIsInclusiveBand := fun w b =>
  ⟨near_iff w b, (near_iff w b).trans (inWindow_iff_ceil_floor w b)⟩

/-- The widths a band accepts, from its two bounds as natural numbers. -/
theorem near_iff_between {b : Int} {lo hi : Nat} (w : Nat) (hlo : -((-(85 * b)) / 100) = lo)
    (hhi : 115 * b / 100 = hi) : near w b = true ↔ lo ≤ w ∧ w ≤ hi := by
  rw [near_iff, inWindow_iff_ceil_floor, hlo, hhi, Int.ofNat_le, Int.ofNat_le]

/-- `P_sep` has a lower bound only, by the formula of 41_classifier.md rule R135. -/
theorem pSep_iff_le {th : Thresholds} {lo : Nat} (w : Nat) (hlo : 85 * th.sepHigh / 100 + 1 = lo) :
    pSep th w = true ↔ lo ≤ w := by
  rw [pSep_iff]
  omega

/-- Settles O18, by the bounds of each window at that rate. -/
theorem windowsAtOneMegahertz : Obligations.WindowsAtOneMegahertz := by
  refine ⟨fun w => ⟨near_iff_between w rfl rfl, near_iff_between w rfl rfl,
    near_iff_between w rfl rfl, near_iff_between w rfl rfl, near_iff_between w rfl rfl,
    near_iff_between w rfl rfl, pSep_iff_le w rfl, ?_⟩, ?_⟩
  · have hidle : (calibrate 1000000).idle = 29999 := rfl
    rw [pIdle_iff, hidle]
    omega
  · decide

/-! ### The widths two windows share -/

/-- No width lies in both bit windows, at any rate (41_classifier.md rule R138 (b)). -/
theorem not_pB0_and_pB1 (R w : Nat) :
    ¬ (pB0 (calibrate R) w = true ∧ pB1 (calibrate R) w = true) := by
  rintro ⟨h0, h1⟩
  exact not_inWindow_bit0High ((near_iff w _).mp h1) ((near_iff w _).mp h0)

/-- A pulse over the idle threshold is in no window of a nominal width of at most half `US_IDLE`
(41_classifier.md rule R138 (c)). -/
theorem near_eq_false_of_pIdle {R us w : Nat} (hus : 2 * us ≤ Config.usIdle)
    (h : pIdle (calibrate R) w = true) : near w (threshold R us) = false := by
  rw [← Bool.not_eq_true, near_iff]
  intro hw
  rw [pIdle_of_inWindow hus hw] at h
  exact Bool.false_ne_true h

/-! ### The least useful rates -/

/-- A window holds a width of 1 or more exactly when its threshold is positive, and then the
threshold is such a width (41_classifier.md rule R138 (d)). -/
theorem exists_near_iff (b : Int) : (∃ w, 1 ≤ w ∧ near w b = true) ↔ 1 ≤ b := by
  simp only [near_iff, InWindow]
  constructor
  · rintro ⟨w, hw, -, hle⟩
    omega
  · intro hb
    exact ⟨b.toNat, by omega, by omega, by omega⟩

/-- The least rate `n` at which a threshold is positive is `ceil(2000000 / US_X)`. -/
theorem one_le_threshold_iff {us n : Nat} (R : Nat) (hus : 0 < us) (hn : 2000000 ⌈/⌉ us = n) :
    1 ≤ threshold R us ↔ n ≤ R := by
  rw [← hn, ceilDiv_le_iff_le_mul hus, Nat.mul_comm us, threshold]
  omega

/-- The least rate `n` at which a window holds a width of 1 or more. -/
theorem exists_near_threshold_iff {us n : Nat} (R : Nat) (hus : 0 < us)
    (hn : 2000000 ⌈/⌉ us = n) :
    (∃ w, 1 ≤ w ∧ near w (threshold R us) = true) ↔ n ≤ R :=
  (exists_near_iff _).trans (one_le_threshold_iff R hus hn)

/-- Settles O19: the bit windows are apart, every nominal width is below half of `US_IDLE`, and a
window is non-empty where its threshold is positive. -/
theorem windowsNeverConflict : Obligations.WindowsNeverConflict := by
  refine ⟨fun R w _ _ => ⟨not_pB0_and_pB1 R w, fun h => ?_⟩, fun R _ => ?_⟩
  · and_intros <;> exact near_eq_false_of_pIdle (by decide) h
  · and_intros <;> exact exists_near_threshold_iff R (by decide) rfl

end Sys2Proof.Proofs

/-! SUPPORT. The row of an edge in the source's own order of tests, and the `EDGE` command that runs
it (42_fsm.md rules R150, R170; 60_exceptions.md rule R251). -/

namespace Sys2Proof.Proofs

open Sys2Proof.Machine Sys2Proof.Safety Sys2Proof.Laws

/-- The tests of a state on the vector's bits are those of the source's own order. -/
theorem stateRow_dispatchVector {d : DecoderState} (e : Edge) (h : d.prevValid = true) :
    stateRow d.state (dispatchVector d e) = sourceOrderRow d e := by
  have hbit (i : Fin 14) := getLsbD_dispatchVector d e i
  have hll : (dispatchVector d e).getLsbD 6 = near (e.t - d.prevTs) d.th.leadLow := hbit 6
  have hlh : (dispatchVector d e).getLsbD 5 = near (e.t - d.prevTs) d.th.leadHigh := hbit 5
  have hbl : (dispatchVector d e).getLsbD 4 = near (e.t - d.prevTs) d.th.bitLow := hbit 4
  have hb0 : (dispatchVector d e).getLsbD 3 = near (e.t - d.prevTs) d.th.bit0High := hbit 3
  have hb1 : (dispatchVector d e).getLsbD 2 = near (e.t - d.prevTs) d.th.bit1High := hbit 2
  cases hs : d.state with
  | idle =>
    simp only [stateRow, sourceOrderRow, h, hs, hll, dispatchVector_rise_iff, Rise]
    cases near (e.t - d.prevTs) d.th.leadLow <;> simp
  | leaderLow =>
    simp [stateRow, sourceOrderRow, h, hs, hll, dispatchVector_idle_iff, dispatchVector_rise_iff,
      Rise, pulseWidth, -BitVec.getLsbD_eq_getElem]
  | leaderHigh =>
    simp [stateRow, sourceOrderRow, h, hs, hlh, dispatchVector_idle_iff, dispatchVector_fall_iff,
      Fall, pulseWidth, -BitVec.getLsbD_eq_getElem]
  | dataLow =>
    simp [stateRow, sourceOrderRow, h, hs, hbl, dispatchVector_idle_iff, dispatchVector_full_iff,
      pulseWidth, -BitVec.getLsbD_eq_getElem]
  | dataHigh =>
    simp [stateRow, sourceOrderRow, h, hs, hb0, hb1, dispatchVector_idle_iff, pulseWidth,
      -BitVec.getLsbD_eq_getElem]
  | sep =>
    simp [stateRow, sourceOrderRow, h, hs, dispatchVector_idle_iff, dispatchVector_sep_iff,
      pulseWidth, -BitVec.getLsbD_eq_getElem]

/-- The first edge of a session selects `T_FIRST` (42_fsm.md rule R151). -/
theorem selectRow_of_not_prevValid {d : DecoderState} (e : Edge) (h : d.prevValid = false) :
    selectRow d e = some .tFirst :=
  decodeRow_of_not_prevValid ((dispatchVector_prevValid d e).trans h)

/-- Settles O7: before a first edge both select `T_FIRST`, and after it the table makes the tests of
the state in the source's own order. -/
theorem rowSelectionFollowsSourceOrder : Obligations.RowSelectionFollowsSourceOrder := by
  intro d e
  cases h : d.prevValid with
  | false => rw [selectRow_of_not_prevValid e h, sourceOrderRow, h]; rfl
  | true => rw [selectRow_of_prevValid e h, stateRow_dispatchVector e h]

/-! ### The command -/

/-- An `EDGE` is accepted in a session, when it is later than the edge before it (42_fsm.md rule
R150). -/
theorem edgeAccepted_iff (d : DecoderState) (e : Edge) :
    edgeAccepted d e = true ↔ d.running = true ∧ (d.prevValid = true → d.prevTs < e.t) := by
  cases h : d.prevValid <;> simp [edgeAccepted, h]

theorem exec_edge_refused {s : State} {t : Nat} {l : Level}
    (h : edgeAccepted s.dec { t := t, lvl := l } ≠ true) :
    exec (.edge t l) s = onlyAnswered s .errRefused :=
  if_neg h

/-- The end of an edge step records the edge and answers `OK`, whatever its row left and emitted
(42_fsm.md rule R170). -/
theorem tracker_of_edgeDone {s s' : State} {d : DecoderState} {as : List Annotation}
    (h : edgeDone s d as = .next s') :
    s'.dec.prevValid = true ∧ s'.dec.prevTs = s.edge.t ∧ s'.dec.prevLevel = s.edge.lvl ∧
      s'.responses = s.responses ++ [.ok] := by
  rw [edgeDone_inj] at h
  subst h
  exact ⟨rfl, rfl, rfl, rfl⟩

/-- Settles O10: the acceptance checks, the one row that is selected, and the epilogue that ends
every row. -/
theorem edgeRunsMatchingRow : Obligations.EdgeRunsMatchingRow := by
  refine ⟨fun s t l h => exec_edge_refused ?_, fun s t l hrun hlater => ?_⟩
  · rw [Ne, edgeAccepted_iff]
    rintro ⟨hrun, hlater⟩
    obtain hstop | ⟨hv, hle⟩ := h
    · simp [hrun] at hstop
    · exact absurd (hlater hv) (not_lt.mpr hle)
  · have hacc := (edgeAccepted_iff s.dec { t := t, lvl := l }).mpr ⟨hrun, hlater⟩
    have hrow (r : Row) (hr : selectRow s.dec { t := t, lvl := l } = some r) :
        exec (.edge t l) s = exec r.toInstr (withEdge s t l) := by
      rw [exec_toInstr]
      exact execEdge_accepted t l s r hacc hr
    have hsource := hrow _ (rowSelectionFollowsSourceOrder s.dec { t := t, lvl := l })
    refine ⟨hsource, fun p hp happ => hrow _ (decodeRow_of_applies hp happ), fun s' hx => ?_⟩
    rw [hsource, exec_toInstr] at hx
    obtain ⟨d, as, hd, -⟩ := runRow_effect _ _ s' hx
    exact tracker_of_edgeDone hd

end Sys2Proof.Proofs

/-! SUPPORT. The transition rows one by one: what each does in every state, and the pulses that take
it (42_fsm.md rules R151 to R169). -/

namespace Sys2Proof.Proofs

open Sys2Proof.Machine Sys2Proof.Safety Sys2Proof.Laws

/-- A row as an instruction has the effect of the row. -/
theorem exec_row_of_effect (r : Row) {s : State} {d : DecoderState} {as : List Annotation}
    (h : RowEffect r s d as) : exec r.toInstr s = edgeDone s d as := by
  rw [exec_toInstr, runRow_of_effect h]

/-! ### Rows that only record the edge -/

/-- The first edge of a session is only recorded (42_fsm.md rule R151). -/
theorem exec_edge_first {s : State} (t : Nat) (l : Level) (hrun : s.dec.running = true)
    (hv : s.dec.prevValid = false) :
    exec (.edge t l) s = edgeDone (withEdge s t l) s.dec [] := by
  have hacc := (edgeAccepted_iff s.dec { t := t, lvl := l }).mpr ⟨hrun, by simp [hv]⟩
  exact (execEdge_accepted t l s .tFirst hacc (selectRow_of_not_prevValid _ hv)).trans
    (runRow_of_effect ⟨rfl, rfl⟩)

/-- A pulse in `IDLE` outside the leader-low window is only recorded, however long it is (42_fsm.md
rule R153). -/
theorem exec_edge_idle_ignore {s : State} {t : Nat} (l : Level) (hm : Measured s.dec t)
    (hs : s.dec.state = .idle) (hw : ¬ InWindow (t - s.dec.prevTs) s.dec.th.leadLow) :
    exec (.edge t l) s = edgeDone (withEdge s t l) s.dec [] := by
  have h6 := mt (dispatchVector_leadLow_iff s.dec { t := t, lvl := l }).mp hw
  exact exec_edge_of_effect .tIdleIgnore hm (by rw [hs, stateRow, if_neg h6]) ⟨rfl, rfl⟩

/-- Settles O25, row by row. -/
theorem quietRowsOnlyTrackTheEdge : Obligations.QuietRowsOnlyTrackTheEdge := by
  refine ⟨fun s => ⟨exec_row_of_effect .tFirst ⟨rfl, rfl⟩,
    exec_row_of_effect .tIdleIgnore ⟨rfl, rfl⟩, exec_row_of_effect .tDlSkip ⟨rfl, rfl⟩⟩,
    fun s t l hrun hv => ⟨exec_edge_first t l hrun hv, fun hinv => hinv.1.first_idle hv⟩,
    fun s t l hm hs hw => exec_edge_idle_ignore l hm hs hw, fun s t l hm hs hi hw => ?_⟩
  have h9 := dispatchVector_idle_of_notIdle l hi
  have h4 := mt (dispatchVector_bitLow_iff s.dec { t := t, lvl := l }).mp hw
  exact exec_edge_of_effect .tDlSkip hm (by rw [hs, stateRow, if_neg h9, if_neg h4]) ⟨rfl, rfl⟩

/-! ### The leader -/

/-- Settles O26: the two rows have one effect. -/
theorem leaderLowOpensBlock : Obligations.LeaderLowOpensBlock :=
  ⟨fun _ => ⟨exec_row_of_effect .tIdleLeader ⟨rfl, rfl⟩, exec_row_of_effect .tLlOk ⟨rfl, rfl⟩⟩,
    fun _ _ _ hm hs hw hr => exec_edge_leaderLow hm hs hw hr⟩

/-- Before the data the block is empty, every byte of the buffer included (10_state.md rules R25,
R43 (d)). -/
theorem coreInv_empty_of_leader {d : DecoderState} (h : CoreInv d)
    (hs : d.state = .idle ∨ d.state = .leaderLow ∨ d.state = .leaderHigh) :
    d.acc = 0 ∧ d.bitCount = 0 ∧ d.byteCount = 0 ∧ ∀ i, i < 6 → bufByte d i = some 0 := by
  obtain ⟨hbit, hbyte, hacc⟩ := h.leader_clear hs
  exact ⟨hacc, hbit, hbyte, fun i hi => h.buf_tail i (by omega) hi⟩

/-- Settles O30: the row, the pulse that takes it, and the empty block before it. -/
theorem leaderHighBeginsData : Obligations.LeaderHighBeginsData :=
  ⟨fun _ => exec_row_of_effect .tLhOk ⟨rfl, rfl⟩,
    fun _ _ _ hm hs hi hf hw => exec_edge_leaderHigh hm hs hi hf hw,
    fun _ hinv hs => coreInv_empty_of_leader hinv.1 (.inr (.inr hs))⟩

/-! ### Resets -/

/-- Settles O27: the row of each state that a pulse of the wrong shape takes. -/
theorem silentResetRows : Obligations.SilentResetRows := by
  constructor
  · simp only [List.forall_mem_cons, List.not_mem_nil, false_implies, implies_true, and_true]
    exact fun s => ⟨exec_row_of_effect .tIdlePol ⟨rfl, rfl⟩, exec_row_of_effect .tLlPol ⟨rfl, rfl⟩,
      exec_row_of_effect .tLhPol ⟨rfl, rfl⟩, exec_row_of_effect .tDhFail ⟨rfl, rfl⟩⟩
  · intro s t l hm hcase
    obtain ⟨hs, hw, hr⟩ | ⟨hs, hi, hr⟩ | ⟨hs, hi, hf⟩ | ⟨hs, hi, hw0, hw1⟩ := hcase
    · have h6 := (dispatchVector_leadLow_iff s.dec ⟨t, l⟩).mpr hw
      have h8 := mt (dispatchVector_rise_iff s.dec ⟨t, l⟩).mp hr
      exact exec_edge_of_effect .tIdlePol hm (by rw [hs, stateRow, if_pos h6, if_neg h8])
        ⟨rfl, rfl⟩
    · have h9 := dispatchVector_idle_of_notIdle l hi
      have h8 := mt (dispatchVector_rise_iff s.dec ⟨t, l⟩).mp hr
      exact exec_edge_of_effect .tLlPol hm (by rw [hs, stateRow, if_neg h9, if_neg h8])
        ⟨rfl, rfl⟩
    · have h9 := dispatchVector_idle_of_notIdle l hi
      have h7 := mt (dispatchVector_fall_iff s.dec ⟨t, l⟩).mp hf
      exact exec_edge_of_effect .tLhPol hm (by rw [hs, stateRow, if_neg h9, if_neg h7])
        ⟨rfl, rfl⟩
    · have h9 := dispatchVector_idle_of_notIdle l hi
      have h3 := mt (dispatchVector_bit0High_iff s.dec ⟨t, l⟩).mp hw0
      have h2 := mt (dispatchVector_bit1High_iff s.dec ⟨t, l⟩).mp hw1
      exact exec_edge_of_effect .tDhFail hm
        (by rw [hs, stateRow, if_neg h9, if_neg h3, if_neg h2]) ⟨rfl, rfl⟩

/-- Settles O28: the rows have one effect, and an over-long pulse takes the row of its state. -/
theorem idleTimeoutWarnsAndResets : Obligations.IdleTimeoutWarnsAndResets := by
  refine ⟨?_, fun s t l hm hs hw => exec_edge_overlong l hm hs hw⟩
  simp only [List.forall_mem_cons, List.not_mem_nil, false_implies, implies_true, and_true]
  exact fun s => ⟨exec_row_of_effect .tTimeoutLl ⟨rfl, rfl⟩,
    exec_row_of_effect .tTimeoutLh ⟨rfl, rfl⟩, exec_row_of_effect .tTimeoutDl ⟨rfl, rfl⟩,
    exec_row_of_effect .tTimeoutDh ⟨rfl, rfl⟩, exec_row_of_effect .tTimeoutSep ⟨rfl, rfl⟩⟩

/-- Settles O29: in each of the three states, the row of a pulse outside its window. -/
theorem timingViolationsWarnAndReset : Obligations.TimingViolationsWarnAndReset := by
  refine ⟨fun s => ⟨exec_row_of_effect .tLlBad ⟨rfl, rfl⟩, exec_row_of_effect .tLhBad ⟨rfl, rfl⟩,
    exec_row_of_effect .tSepBad ⟨rfl, rfl⟩⟩, fun s t l hm hi => ?_⟩
  have h9 := dispatchVector_idle_of_notIdle l hi
  refine ⟨fun hs hr hw => ?_, fun hs hf hw => ?_, fun hs hw => ?_⟩
  · have h8 := (dispatchVector_rise_iff s.dec ⟨t, l⟩).mpr hr
    have h6 := mt (dispatchVector_leadLow_iff s.dec ⟨t, l⟩).mp hw
    exact exec_edge_of_effect .tLlBad hm
      (by rw [hs, stateRow, if_neg h9, if_pos h8, if_neg h6]) ⟨rfl, rfl⟩
  · have h7 := (dispatchVector_fall_iff s.dec ⟨t, l⟩).mpr hf
    have h5 := mt (dispatchVector_leadHigh_iff s.dec ⟨t, l⟩).mp hw
    exact exec_edge_of_effect .tLhBad hm
      (by rw [hs, stateRow, if_neg h9, if_pos h7, if_neg h5]) ⟨rfl, rfl⟩
  · have h1 := mt (dispatchVector_sep_iff s.dec ⟨t, l⟩).mp (not_lt.mpr hw)
    exact exec_edge_of_effect .tSepBad hm (by rw [hs, stateRow, if_neg h9, if_neg h1]) ⟨rfl, rfl⟩

/-! ### The data and the separator -/

/-- A bit-low pulse that is not the separator's starts a bit (42_fsm.md rule R163). -/
theorem exec_edge_bitLow {s : State} {t : Nat} {l : Level} (hm : Measured s.dec t)
    (hs : s.dec.state = .dataLow) (hi : NotIdle s.dec t)
    (hw : InWindow (t - s.dec.prevTs) s.dec.th.bitLow)
    (hfull : ¬ (s.dec.byteCount = 6 ∧ s.dec.bitCount = 0)) :
    exec (.edge t l) s =
      edgeDone (withEdge s t l)
        { s.dec with
          state := .dataHigh, bitStart := s.dec.prevTs
          byteStart := if s.dec.bitCount = 0 then s.dec.prevTs else s.dec.byteStart } [] := by
  have h9 := dispatchVector_idle_of_notIdle l hi
  have h4 := (dispatchVector_bitLow_iff s.dec { t := t, lvl := l }).mpr hw
  have h0 := mt (dispatchVector_full_iff s.dec { t := t, lvl := l }).mp hfull
  exact exec_edge_of_effect .tDlBit hm
    (by rw [hs, stateRow, if_neg h9, if_pos h4, if_neg h0]) ⟨rfl, rfl⟩

/-- Settles O31: the position of the pulse in the block decides between the two rows. -/
theorem dataLowPulses : Obligations.DataLowPulses :=
  ⟨fun _ => ⟨exec_row_of_effect .tDlSep ⟨rfl, rfl⟩, exec_row_of_effect .tDlBit ⟨rfl, rfl⟩⟩,
    fun _ _ _ hm hs hi hw => ⟨exec_edge_separatorLow hm hs hi hw, exec_edge_bitLow hm hs hi hw⟩⟩

/-- Settles O32: both rows are the decoded bit, which closes a byte only when it is the eighth. -/
theorem decodedBitIsAppended : Obligations.DecodedBitIsAppended := fun s h7 => by
  have happ : appended s.dec.acc false = s.dec.acc * 2 := BitVec.add_zero _
  exact ⟨happ ▸ decodeBit_open false s h7, decodeBit_open true s h7⟩

/-- Settles O35: the window of a 0 bit is looked at first. -/
theorem dataHighPulsesDiscriminate : Obligations.DataHighPulsesDiscriminate := by
  intro s t l hm hs hi
  have hidle : pIdle s.dec.th (t - s.dec.prevTs) = false := decide_eq_false (not_lt.mpr hi)
  refine ⟨fun hw => ?_, fun hw0 hw1 => ?_⟩
  · exact exec_edge_of_selectRow hm
      (selectRow_tDhBit0 hm.prevValid hs hidle ((near_iff _ _).mpr hw))
  · rw [← near_iff, Bool.not_eq_true] at hw0
    exact exec_edge_of_selectRow hm
      (selectRow_tDhBit1 hm.prevValid hs hidle hw0 ((near_iff _ _).mpr hw1))

/-- Settles O36: the row, and the pulse that takes it. -/
theorem separatorCompletesBlock : Obligations.SeparatorCompletesBlock := by
  have hrow (s : State) := exec_row_of_effect .tSepOk (s := s) ⟨rfl, rfl⟩
  exact ⟨hrow, fun s t l hm hs hi hw =>
    (exec_edge_separatorHigh hm hs hi hw).trans (hrow (withEdge s t l)).symm⟩

end Sys2Proof.Proofs

/-! SUPPORT. The graph of the FSM: the state each row leads to, and the recovery from an over-long
pulse (42_fsm.md rules R171 to R173; 70_reset_and_hazards.md rule R285). -/

namespace Sys2Proof.Proofs

open Sys2Proof.Machine Sys2Proof.Safety Sys2Proof.Laws

/-! ### The graph -/

/-- The FSM state that a row of the transition table leads to; `T_FIRST` keeps the one it finds. -/
def rowTarget : Row → Option FsmState
  | .tFirst => none
  | .tIdleIgnore | .tIdlePol | .tLlBad | .tLlPol | .tLhBad | .tLhPol | .tDhFail | .tSepBad =>
    some .idle
  | .tTimeoutLl | .tTimeoutLh | .tTimeoutDl | .tTimeoutDh | .tTimeoutSep => some .idle
  | .tIdleLeader | .tLlOk => some .leaderHigh
  | .tLhOk | .tDlSkip | .tDhBit0 | .tDhBit1 => some .dataLow
  | .tDlSep => some .sep
  | .tDlBit => some .dataHigh
  | .tSepOk => some .leaderLow

theorem bitEffect_state {b : Bool} {s : State} {d : DecoderState} {as : List Annotation}
    (h : BitEffect b s d as) : d.state = .dataLow := by
  obtain ⟨-, rfl, -⟩ | ⟨-, -, rfl, -⟩ := h <;> rfl

/-- A row performed in the state it is a row of leads to its target. -/
theorem rowEffect_target {r : Row} {s : State} {d : DecoderState} {as : List Annotation}
    (hs : rowSource r = some s.dec.state) (h : RowEffect r s d as) :
    rowTarget r = some d.state := by
  cases r with
  | tFirst => cases hs
  | tDhBit0 | tDhBit1 => rw [bitEffect_state h, rowTarget]
  | tIdleIgnore | tDlSkip =>
    obtain ⟨rfl, -⟩ := h
    exact hs
  | _ =>
    obtain ⟨rfl, -⟩ := h
    rfl

/-- Every row leads along an edge of the graph of 42_fsm.md rule R172. -/
theorem rowTarget_mem_graphNext {r : Row} {f g : FsmState} (hf : rowSource r = some f)
    (hg : rowTarget r = some g) : g ∈ graphNext f := by
  cases r <;> cases hf <;> cases hg <;> decide

/-- The row of a state's own tests is a row of that state. -/
theorem rowSource_stateRow (f : FsmState) (v : DispatchWord) :
    rowSource (stateRow f v) = some f := by
  cases f
  all_goals
    simp only [stateRow]
    split_ifs <;> rfl

/-- What an edge that ends a measured pulse does when it answers a next state: the effect of the row
it selects, which is a row of the core's state. -/
theorem exec_measured_effect {s s' : State} {t : Nat} {l : Level} (hm : Measured s.dec t)
    (h : exec (.edge t l) s = .next s') :
    ∃ r d as, selectRow s.dec { t := t, lvl := l } = some r ∧
      rowSource r = some s.dec.state ∧ RowEffect r (withEdge s t l) d as ∧
      edgeDone (withEdge s t l) d as = .next s' := by
  have hsel := selectRow_of_prevValid { t := t, lvl := l } hm.prevValid
  rw [exec_edge_of_selectRow hm hsel] at h
  obtain ⟨d, as, hd, he⟩ := runRow_effect _ _ s' h
  exact ⟨_, d, as, hsel, rowSource_stateRow _ _, he, hd⟩

/-- `LEADER_LOW`, `SEP` and `DATA_HIGH` are each the target of one row. -/
theorem rowTarget_eq_iff (r : Row) :
    (rowTarget r = some .leaderLow ↔ r = .tSepOk) ∧ (rowTarget r = some .sep ↔ r = .tDlSep) ∧
      (rowTarget r = some .dataHigh ↔ r = .tDlBit) := by
  cases r <;> decide

/-- Settles O48: the row leads along the graph, and each of the three states is the target of one
row only. -/
theorem edgesFollowTheGraph : Obligations.EdgesFollowTheGraph := by
  intro s s' t l hm hx
  obtain ⟨r, d, as, hsel, hsource, he, hd⟩ := exec_measured_effect hm hx
  have htarget := rowEffect_target (s := withEdge s t l) hsource he
  obtain ⟨hleaderLow, hseparator, hdataHigh⟩ := rowTarget_eq_iff r
  rw [edgeDone_inj] at hd
  subst hd
  refine ⟨rowTarget_mem_graphNext hsource htarget, fun hll => ?_, fun hsep => ?_, fun hdh => ?_⟩
  · obtain rfl := hleaderLow.mp (htarget.trans (congrArg some hll))
    obtain ⟨-, rfl⟩ := he
    exact ⟨selectRow_source hsel rfl, _, rfl, rfl⟩
  · obtain rfl := hseparator.mp (htarget.trans (congrArg some hsep))
    exact ⟨selectRow_source hsel rfl, (pFull_iff _).mp (selectRow_full hsel rfl)⟩
  · obtain rfl := hdataHigh.mp (htarget.trans (congrArg some hdh))
    obtain ⟨rfl, -⟩ := he
    exact ⟨selectRow_source hsel rfl, rfl⟩

/-! ### Recovery -/

/-- At a calibrated rate a pulse in `IDLE` that is over-long is outside the leader-low window, so it
is ignored (42_fsm.md rule R153). -/
theorem exec_edge_idle_overlong {s : State} {t R : Nat} (l : Level) (hm : Measured s.dec t)
    (hs : s.dec.state = .idle) (hth : s.dec.th = calibrate R)
    (hw : s.dec.th.idle < ((t - s.dec.prevTs : Nat) : Int)) :
    exec (.edge t l) s = edgeDone (withEdge s t l) s.dec [] := by
  refine exec_edge_idle_ignore l hm hs fun hwin => not_lt.mpr ?_ hw
  rw [hth] at hwin
  exact notIdle_of_inWindow hth (by decide) hwin

/-- Settles O49: in `IDLE` the block was empty and the pulse is ignored; in every other state the
full reset empties it. -/
theorem overlongPulseHeals : Obligations.OverlongPulseHeals := by
  rintro s t l ⟨hcore, -⟩ hm hw
  by_cases hs : s.dec.state = .idle
  · obtain ⟨-, hth⟩ := hcore.calibrated (hcore.running_rate hm.running)
    obtain ⟨hacc, hbit, hbyte, hbuf⟩ := coreInv_empty_of_leader hcore (.inl hs)
    exact ⟨_, exec_edge_idle_overlong l hm hs hth hw, hs, hacc, hbit, hbyte, hbuf, rfl, rfl, rfl,
      hm.running, rfl⟩
  · exact ⟨_, exec_edge_overlong l hm hs hw, rfl, rfl, rfl, rfl,
      fun i hi => bufByte_empty _ i hi rfl, rfl, rfl, rfl, hm.running, rfl⟩

end Sys2Proof.Proofs

/-! SUPPORT. The fields of a byte (43_assembler.md): the length of a field by its bits (rule R194),
and the byte an eighth bit closes (rules R191 to R197). -/

namespace Sys2Proof.Proofs

open Sys2Proof.Machine Sys2Proof.Safety Sys2Proof.Laws

/-! ### The length of a field -/

@[simp] theorem bitsLength_nil (th : Thresholds) : bitsLength th [] = 0 := rfl

@[simp] theorem bitsLength_cons (th : Thresholds) (b : Bool) (bs : List Bool) :
    bitsLength th (b :: bs) =
      th.bitLow + (if b then th.bit1High else th.bitLow) + bitsLength th bs := rfl

/-- A 1 bit puts `th_bit1_high` in the place of one of the two `th_bit_low` that every bit has. -/
theorem bitsLength_eq_count (th : Thresholds) (bs : List Bool) :
    bitsLength th bs =
      (bs.count true : Int) * th.bit1High +
        (2 * (bs.length : Int) - (bs.count true : Int)) * th.bitLow := by
  induction bs with
  | nil => simp
  | cons b bs ih =>
    rw [bitsLength_cons, ih, List.count_cons, List.length_cons]
    push_cast
    cases b
    · simp only [Bool.false_eq_true, if_false, beq_iff_eq]
      ring
    · simp only [if_true, beq_self_eq_true]
      ring

theorem popcount_eq_count {n : Nat} (code : BitVec n) :
    popcount code = ((List.range n).map fun i => code.getLsbD i).count true := by
  simp [popcount, List.count, List.countP_map, Function.comp_def]

/-- At 1,000,000 samples per second `th_bit_low` is 599 and `th_bit1_high` is 1599, so a 1 bit is
1000 samples longer than a 0 bit. -/
theorem fieldLen_at_oneMegahertz {n : Nat} (c : BitVec n) :
    fieldLen (calibrate 1000000) c = 1198 * (n : Int) + 1000 * (popcount c : Int) := by
  have hlow : (calibrate 1000000).bitLow = 599 := rfl
  have hhigh : (calibrate 1000000).bit1High = 1599 := rfl
  rw [fieldLen, hlow, hhigh]
  ring

/-- Settles O39: by induction on the bits their lengths add up to the weighted length of their
count; the table's values are one formula's, at the widths 2, 3 and 4. -/
theorem fieldLengthCountsItsBits : Obligations.FieldLengthCountsItsBits := by
  refine ⟨fun th n code => ?_, fieldLen_at_oneMegahertz, fieldLen_at_oneMegahertz,
    fieldLen_at_oneMegahertz⟩
  rw [bitsLength_eq_count, ← popcount_eq_count, List.length_map, List.length_range, fieldLen]

/-! ### The byte an eighth bit closes -/

/-- Settles O33: both rows are the decoded bit, which closes the byte when it is the eighth. -/
theorem eighthBitClosesByte : Obligations.EighthBitClosesByte := fun s h h7 => by
  have happ : appended s.dec.acc false = s.dec.acc * 2 := BitVec.add_zero _
  exact ⟨happ ▸ decodeBit_close false s h7 h, decodeBit_close true s h7 h⟩

/-! ### The temperature of a nibble -/

/-- Settles O40: the range is every entry's, and the two fixed points are decided before a free
entry is looked up. -/
theorem grayTempContract : Obligations.GrayTempContract := ⟨grayTemp_range, rfl, rfl⟩

end Sys2Proof.Proofs

/-! SUPPORT. The host commands: what each does in each lifecycle mode, and the acceptance table that
collects their answers (44_host_ops.md rules R220 to R224; 60_exceptions.md rules R249, R258). -/

namespace Sys2Proof.Proofs

open Sys2Proof.Machine Sys2Proof.Safety Sys2Proof.Laws

/-! ### The commands one by one -/

/-- `SET_POL` in every state (44_host_ops.md rule R221). -/
theorem exec_setPol (l : Level) (s : State) :
    exec (.setPol l) s = commandDone s { s.dec with polarity := Polarity.ofLevel l } := rfl

/-- Settles O20, for each of the two levels. -/
theorem setPolRecordsOption : Obligations.SetPolRecordsOption := fun s =>
  ⟨exec_setPol .low s, exec_setPol .high s⟩

theorem exec_start_of_running {s : State} (h : s.dec.running = true) :
    exec .start s = onlyAnswered s .errRefused :=
  if_pos h

theorem exec_start_of_no_rate {s : State} (hrun : s.dec.running = false)
    (hrate : s.dec.rateValid = false) : exec .start s = onlyAnswered s .errMissingRate := by
  simp [exec, execStart, hrun, hrate]

theorem exec_start_of_configured {s : State} (hrun : s.dec.running = false)
    (hrate : s.dec.rateValid = true) :
    exec .start s = commandDone s { clearSession s.dec with running := true } := by
  simp [exec, execStart, hrun, hrate, commandDone, respond]

/-- Settles O21: the session that begins is cleared register by register. -/
theorem startBeginsSession : Obligations.StartBeginsSession := fun _ =>
  ⟨exec_start_of_running, exec_start_of_no_rate, exec_start_of_configured⟩

theorem exec_endInput_of_stopped {s : State} (h : s.dec.running = false) :
    exec .endInput s = onlyAnswered s .errRefused := by
  simp [exec, execEndInput, h]

theorem exec_endInput_of_running {s : State} (h : s.dec.running = true) :
    exec .endInput s = commandDone s { clearSession s.dec with running := false } :=
  if_pos h

/-- Settles O22: the session that ends is cleared register by register. -/
theorem endClosesSession : Obligations.EndClosesSession := fun _ =>
  ⟨exec_endInput_of_stopped, exec_endInput_of_running⟩

/-- Settles O23, for each of the three opcodes. -/
theorem reservedOpcodesRefused : Obligations.ReservedOpcodesRefused := by
  intro s i hi
  simp only [List.mem_cons, List.not_mem_nil, or_false] at hi
  obtain rfl | rfl | rfl := hi <;> rfl

/-- In a state of the invariant an accepted `EDGE` completes, and its row keeps the configuration: a
row is always selected, and an eighth bit always has a byte of the buffer left to close. -/
theorem exec_edge_completes {s : State} {t : Nat} {l : Level} (hinv : Inv s)
    (hacc : edgeAccepted s.dec { t := t, lvl := l } = true) :
    ∃ d as, exec (.edge t l) s = edgeDone (withEdge s t l) d as ∧ SameConfig s.dec d := by
  obtain ⟨hcore, -⟩ := hinv
  have hroom : s.dec.bitCount = 7 → s.dec.byteCount < 6 := fun h7 => by
    have hle := hcore.byteCount_le
    have hfull := hcore.full_no_pending
    omega
  have hsel := rowSelectionFollowsSourceOrder s.dec { t := t, lvl := l }
  have hrow : exec (.edge t l) s = runRow _ (withEdge s t l) := execEdge_accepted t l s _ hacc hsel
  obtain ⟨s', hs'⟩ := runRow_completes _ (withEdge s t l) hroom
  obtain ⟨d, as, hdone, heffect⟩ := runRow_effect _ _ s' hs'
  exact ⟨d, as, hrow.trans (hs'.trans hdone.symm),
    sameConfig_rowEffect (s := withEdge s t l) heffect⟩

/-! ### The lifecycle mode -/

theorem lifecycle_eq_running_iff {d : DecoderState} :
    lifecycle d = .running ↔ d.running = true := by
  cases hrun : d.running <;> cases hrate : d.rateValid <;> simp [lifecycle, hrun, hrate]

theorem lifecycle_eq_configured_iff {d : DecoderState} :
    lifecycle d = .configured ↔ d.running = false ∧ d.rateValid = true := by
  cases hrun : d.running <;> cases hrate : d.rateValid <;> simp [lifecycle, hrun, hrate]

theorem lifecycle_eq_unconfigured_iff {d : DecoderState} :
    lifecycle d = .unconfigured ↔ d.running = false ∧ d.rateValid = false := by
  cases hrun : d.running <;> cases hrate : d.rateValid <;> simp [lifecycle, hrun, hrate]

theorem running_of_lifecycle_ne {d : DecoderState} (h : lifecycle d ≠ .running) :
    d.running = false := by
  simpa [lifecycle_eq_running_iff] using h

/-- The mode depends on the flags `running` and `rate_valid` alone. -/
theorem lifecycle_congr {d d' : DecoderState} (hrun : d'.running = d.running)
    (hrate : d'.rateValid = d.rateValid) : lifecycle d' = lifecycle d := by
  rw [lifecycle, lifecycle, hrun, hrate]

/-! ### The acceptance table -/

/-- The command `i` is answered `r` in the state `s`, the mode afterwards is `m`, and an answer
other than `OK` is all that happens (44_host_ops.md rule R220). -/
def Answers (i : Instr) (s : State) (r : Response) (m : Lifecycle) : Prop :=
  ∃ s', exec i s = .next s' ∧ s'.responses = s.responses ++ [r] ∧ lifecycle s'.dec = m ∧
    (r ≠ .ok → exec i s = onlyAnswered s r)

section Answers
variable {i : Instr} {s : State} {r : Response} {m : Lifecycle}

theorem answers_of_onlyAnswered (h : exec i s = onlyAnswered s r) (hm : lifecycle s.dec = m) :
    Answers i s r m :=
  ⟨_, h, rfl, hm, fun _ => h⟩

theorem answers_of_commandDone {d : DecoderState} (h : exec i s = commandDone s d)
    (hm : lifecycle d = m) : Answers i s .ok m :=
  ⟨_, h, rfl, hm, absurd rfl⟩

/-- An accepted `EDGE` is answered `OK` and keeps the mode. -/
theorem answers_edge_of_accepted {t : Nat} {l : Level} (hinv : Inv s)
    (hacc : edgeAccepted s.dec { t := t, lvl := l } = true) (hm : lifecycle s.dec = m) :
    Answers (.edge t l) s .ok m := by
  obtain ⟨d, as, hdone, hk⟩ := exec_edge_completes hinv hacc
  exact ⟨_, hdone, rfl, (lifecycle_congr hk.running hk.rateValid).trans hm, absurd rfl⟩

theorem answers_setRate {R : Nat} (h : acceptance (.setRate R) s.dec = some (r, m)) :
    Answers (.setRate R) s r m := by
  by_cases hR : R = 0
  · simp only [acceptance, hR, if_true] at h
    cases h
    exact answers_of_onlyAnswered ((setRateRecomputesThresholds s R).1 hR) rfl
  · simp only [acceptance, hR, if_false] at h
    have hdone := exec_setRate_of_ne_zero s hR
    cases hm : lifecycle s.dec with
    | unconfigured | configured =>
      have hrun : s.dec.running = false := running_of_lifecycle_ne (by simp [hm])
      rw [hm] at h
      cases h
      exact answers_of_commandDone hdone (lifecycle_eq_configured_iff.mpr ⟨hrun, rfl⟩)
    | running =>
      have hrun : s.dec.running = true := lifecycle_eq_running_iff.mp hm
      rw [hm] at h
      cases h
      exact answers_of_commandDone hdone (lifecycle_eq_running_iff.mpr hrun)

theorem answers_start (h : acceptance .start s.dec = some (r, m)) : Answers .start s r m := by
  cases hm : lifecycle s.dec with
  | unconfigured =>
    obtain ⟨hrun, hrate⟩ := lifecycle_eq_unconfigured_iff.mp hm
    simp only [acceptance, hm] at h
    cases h
    exact answers_of_onlyAnswered (exec_start_of_no_rate hrun hrate) hm
  | configured =>
    obtain ⟨hrun, hrate⟩ := lifecycle_eq_configured_iff.mp hm
    simp only [acceptance, hm] at h
    cases h
    exact answers_of_commandDone (exec_start_of_configured hrun hrate)
      (lifecycle_eq_running_iff.mpr rfl)
  | running =>
    simp only [acceptance, hm] at h
    cases h
    exact answers_of_onlyAnswered (exec_start_of_running (lifecycle_eq_running_iff.mp hm)) hm

theorem answers_endInput (hcore : CoreInv s.dec)
    (h : acceptance .endInput s.dec = some (r, m)) : Answers .endInput s r m := by
  cases hm : lifecycle s.dec with
  | unconfigured | configured =>
    have hrun : s.dec.running = false := running_of_lifecycle_ne (by simp [hm])
    simp only [acceptance, hm] at h
    cases h
    exact answers_of_onlyAnswered (exec_endInput_of_stopped hrun) hm
  | running =>
    have hrun : s.dec.running = true := lifecycle_eq_running_iff.mp hm
    simp only [acceptance, hm] at h
    cases h
    exact answers_of_commandDone (exec_endInput_of_running hrun)
      (lifecycle_eq_configured_iff.mpr ⟨rfl, hcore.running_rate hrun⟩)

theorem answers_edge {t : Nat} {l : Level} (hinv : Inv s)
    (h : acceptance (.edge t l) s.dec = some (r, m)) : Answers (.edge t l) s r m := by
  have hrefused := edgeRunsMatchingRow.1 s t l
  cases hm : lifecycle s.dec with
  | unconfigured | configured =>
    have hrun : s.dec.running = false := running_of_lifecycle_ne (by simp [hm])
    simp only [acceptance, hm] at h
    cases h
    exact answers_of_onlyAnswered (hrefused (.inl hrun)) hm
  | running =>
    have hrun : s.dec.running = true := lifecycle_eq_running_iff.mp hm
    simp only [acceptance, hm] at h
    split_ifs at h with hlate
    · cases h
      exact answers_of_onlyAnswered (hrefused (.inr hlate)) hm
    · cases h
      have hlater : s.dec.prevValid = true → s.dec.prevTs < t := fun hv =>
        not_le.mp fun hle => hlate ⟨hv, hle⟩
      exact answers_edge_of_accepted hinv ((edgeAccepted_iff _ _).mpr ⟨hrun, hlater⟩) hm

end Answers

/-- Settles O24, command by command; a transition row has no entry in the table. -/
theorem acceptanceByLifecycleMode : Obligations.AcceptanceByLifecycleMode := by
  intro s i r m hinv h
  cases i with
  | setRate R => exact answers_setRate h
  | setPol l =>
    cases h
    exact answers_of_commandDone (exec_setPol l s) rfl
  | start => exact answers_start h
  | edge t l => exact answers_edge hinv h
  | endInput => exact answers_endInput hinv.1 h
  | reserved000 | reserved110 | reserved111 =>
    cases h
    exact answers_of_onlyAnswered (reservedOpcodesRefused s _ (by simp)) rfl
  | _ => cases h

end Sys2Proof.Proofs

/-! SUPPORT. The exceptional events: no input stops the core, and a warning comes with the full reset
and nothing else (60_exceptions.md rules R240, R253, R254, R257). -/

namespace Sys2Proof.Proofs

open Sys2Proof.Machine Sys2Proof.Safety Sys2Proof.Laws

/-! ### Nothing stops the core -/

/-- Whatever opcode a command word carries, its instruction is answered in every lifecycle mode. -/
theorem acceptance_decodeCmd (w : CmdWord) (d : DecoderState) :
    (acceptance (decodeCmd w) d).isSome = true := by
  unfold decodeCmd
  split_ifs
  all_goals cases hm : lifecycle d <;> simp [acceptance, hm, apply_ite Option.isSome]

/-- In a state of the invariant the instruction of a command word answers a next state. -/
theorem exec_decodeCmd_completes {s : State} (w : CmdWord) (h : Inv s) :
    ∃ s', exec (decodeCmd w) s = .next s' := by
  obtain ⟨⟨r, m⟩, hacc⟩ := Option.isSome_iff_exists.mp (acceptance_decodeCmd w s.dec)
  obtain ⟨s', hx, -⟩ := acceptanceByLifecycleMode s _ r m h hacc
  exact ⟨s', hx⟩

/-- In a state of the invariant every step answers a next state. -/
theorem step_completes {s : State} (h : Inv s) : ∃ s', step s = .next s' := by
  cases hp : s.pending with
  | nil => exact ⟨_, step_idle s hp⟩
  | cons x rest =>
    cases x with
    | resetInput a => exact ⟨_, step_resetInput s a rest hp⟩
    | command w =>
      rw [step_command s w rest hp]
      split_ifs
      · exact ⟨_, rfl⟩
      · exact exec_decodeCmd_completes (s := { s with pending := rest }) w h

/-- Settles O44, by induction on the number of steps: each answers a next state, which meets the
invariant again. -/
theorem nothingHaltsTheCore : Obligations.NothingHaltsTheCore := by
  intro s h k
  induction k generalizing s with
  | zero => exact ⟨s, rfl⟩
  | succ k ih =>
    obtain ⟨s', hstep⟩ := step_completes h
    rw [run_of_step k s s' hstep]
    exact ih s' (everyStepKeepsInvariant s s' h hstep)

/-! ### A warning and the full reset -/

/-- A decoded bit emits no warning. -/
theorem ofKind_warning_bitEffect {b : Bool} {s : State} {d : DecoderState} {as : List Annotation}
    (h : BitEffect b s d as) : ofKind .warning as = [] := by
  obtain ⟨-, -, rfl⟩ | ⟨-, -, -, rfl⟩ := h
  · rfl
  · simp [ofKind_cons, ofKind_fieldRecords]

/-- A row that emits a warning is a row of a state other than `IDLE`; the warning is its one record,
over the pulse, and the core is reset in full. -/
theorem rowEffect_of_warning {r : Row} {s : State} {d : DecoderState} {as : List Annotation}
    {a : Annotation} (h : RowEffect r s d as) (ha : a ∈ ofKind .warning as) :
    (∃ f, rowSource r = some f ∧ f ≠ .idle) ∧ d = cleared s.dec ∧
      as = [a] ∧ a = overPulse s .warning a.data := by
  cases r with
  | tDhBit0 | tDhBit1 =>
    rw [ofKind_warning_bitEffect h] at ha
    cases ha
  | tTimeoutLl | tTimeoutLh | tTimeoutDl | tTimeoutDh | tTimeoutSep | tLlBad | tLhBad | tSepBad =>
    obtain ⟨rfl, rfl⟩ := h
    obtain rfl : a = _ := by simpa [ofKind, overPulse] using ha
    exact ⟨⟨_, rfl, by decide⟩, rfl, rfl, rfl⟩
  | _ =>
    obtain ⟨-, rfl⟩ := h
    simp [ofKind, overPulse] at ha

/-- The acceptance table of 44_host_ops.md rule R220 has no entry for a transition row. -/
@[simp] theorem acceptance_toInstr (r : Row) (d : DecoderState) : acceptance r.toInstr d = none := by
  cases r <;> rfl

/-- Settles O47: of the host commands only an `EDGE` emits, and its row is one that warns. -/
theorem warningMeansFullReset : Obligations.WarningMeansFullReset := by
  intro s s' i new a hacc hx hout ha hk
  rcases exec_effect i s s' hx with
    ⟨r, -, hr⟩ | ⟨d, -, hd⟩ | ⟨t, l, r, d, as, rfl, -, hsel, he, hd⟩ | ⟨r, -, -, rfl, -⟩
  · rw [onlyAnswered_inj] at hr
    subst hr
    obtain rfl : new = [] := List.self_eq_append_right.mp hout
    cases ha
  · cases hd
    obtain rfl : new = [] := List.self_eq_append_right.mp hout
    cases ha
  · rw [edgeDone_inj] at hd
    subst hd
    obtain rfl : as = new := List.append_cancel_left hout
    obtain ⟨⟨f, hf, hidle⟩, rfl, hnew, hover⟩ :=
      rowEffect_of_warning he (List.mem_filter.mpr ⟨ha, decide_eq_true hk⟩)
    exact ⟨t, l, rfl, hnew, congrArg Annotation.start hover, congrArg Annotation.stop hover,
      selectRow_source hsel hf ▸ hidle, rfl, ⟨rfl, rfl, rfl, rfl, rfl, rfl⟩, rfl, rfl⟩
  · exact absurd (acceptance_toInstr r s.dec) hacc

end Sys2Proof.Proofs

/-! SUPPORT. The hardware reset input: what its changes do, and that a core held in reset stays at its
reset values until the release (70_reset_and_hazards.md rule R280). -/

namespace Sys2Proof.Proofs

open Sys2Proof.Machine Sys2Proof.Safety Sys2Proof.Laws

/-! ### Asserting and releasing the reset input -/

/-- Settles O9, by what a step does with a change of the reset input at each level, and with nothing
pending. -/
theorem resetInputAndIdleWait : Obligations.ResetInputAndIdleWait := by
  refine ⟨fun s rest hp => ?_, fun s rest hr hp => ?_, fun s rest hr hp => ?_, step_idle⟩
  · rw [step_resetInput s true rest hp, driveReset_assert]
    rfl
  · rw [step_resetInput s false rest hp, driveReset_release { s with pending := rest } hr]
    rfl
  · rw [step_resetInput s false rest hp, driveReset_released { s with pending := rest } hr]

/-- While the reset input is asserted a run passes over command words, and changes nothing else. -/
theorem run_commands_in_reset (k : Nat) (ws : List CmdWord) (rest : List HostInput) (s : State)
    (hr : s.resetAsserted = true) (hp : s.pending = ws.map .command ++ rest) :
    Sys2Proof.core.run (ws.length + k) s = Sys2Proof.core.run k { s with pending := rest } := by
  induction ws generalizing s with
  | nil =>
    obtain rfl : s.pending = rest := hp
    rw [List.length_nil, Nat.zero_add]
  | cons w ws ih =>
    obtain ⟨-, -, hlost⟩ := stepRunsDecodedCommand
    rw [List.length_cons, Nat.add_right_comm, run_of_step _ s _ (hlost s w _ hr hp)]
    exact ih { s with pending := ws.map .command ++ rest } hr rfl

/-! ### Held in reset -/

/-- No instruction drives the reset input. -/
theorem exec_keeps_resetAsserted {i : Instr} {s s' : State} (h : exec i s = .next s') :
    s'.resetAsserted = s.resetAsserted := by
  rcases exec_effect i s s' h with
    ⟨r, -, ha⟩ | ⟨d, -, hd⟩ | ⟨t, l, r, d, as, -, -, -, -, he⟩ | ⟨r, d, as, -, -, he⟩
  · cases ha
    rfl
  · cases hd
    rfl
  all_goals
    rw [edgeDone_inj] at he
    subst he
    rfl

theorem heldInReset_of_released {s : State} (hr : s.resetAsserted = false) : HeldInReset s :=
  fun h => absurd (hr.symm.trans h) Bool.false_ne_true

theorem heldInReset_holdInReset (s : State) : HeldInReset (holdInReset s) :=
  fun _ => ⟨rfl, rfl, rfl, rfl⟩

/-- However the reset input is driven: asserted, the core is put at its reset values; released, there
is nothing to show. -/
theorem heldInReset_driveReset (a : Bool) (s : State) : HeldInReset (driveReset a s) := by
  cases a with
  | true => exact heldInReset_holdInReset s
  | false =>
    cases hr : s.resetAsserted with
    | true =>
      rw [driveReset_release s hr]
      exact heldInReset_of_released rfl
    | false =>
      rw [driveReset_released s hr]
      exact heldInReset_of_released hr

/-- A step keeps a core under reset at its reset values: it writes the registers and ports only by the
reset input itself, or by a command, which is executed only with the reset input released. -/
theorem step_keeps_heldInReset {s s' : State} (h : HeldInReset s) (hstep : step s = .next s') :
    HeldInReset s' := by
  rcases step_effect s s' hstep with
    ⟨-, rfl⟩ | ⟨a, rest, -, rfl⟩ | ⟨w, rest, -, -, rfl⟩ | ⟨w, rest, -, hr, hx⟩
  · exact h
  · exact heldInReset_driveReset a _
  · exact h
  · exact heldInReset_of_released ((exec_keeps_resetAsserted hx).trans hr)

/-- Settles O54: the run asserts the reset input, passes over the commands and releases it; that the
core is at its reset values in between is kept by every step. -/
theorem resetHoldsTheCore : Obligations.ResetHoldsTheCore := by
  refine ⟨fun s ws rest hp => ?_, fun s s' => step_keeps_heldInReset,
    heldInReset_of_released rfl⟩
  obtain ⟨hassert, hrelease, -, -⟩ := resetInputAndIdleWait
  calc Sys2Proof.core.run (ws.length + 2) s
    _ = Sys2Proof.core.run (ws.length + 1)
          { State.reset with
            pending := ws.map .command ++ .resetInput false :: rest, resetAsserted := true } :=
      run_of_step _ s _ (hassert s _ hp)
    _ = Sys2Proof.core.run 1
          { State.reset with pending := .resetInput false :: rest, resetAsserted := true } :=
      run_commands_in_reset 1 ws _ _ rfl rfl
    _ = .next { State.reset with pending := rest } :=
      run_of_step 0 _ _ (hrelease _ rest rfl rfl)

end Sys2Proof.Proofs
